-- ==== Sys2Proof/Word.lean ====
section
/-! DEFINITION. The number types of the block: limbs, bytes, command words, accumulators, and a field element
as five limbs (`10_state.md` R21, `00_scope.md` R7, R8). -/

namespace Sys2Proof

/-- A limb's storage: an unsigned 64-bit number (R7 `LIMBW`). -/
abbrev Word := BitVec 64

/-- A byte of the buffer or of the wire format. -/
abbrev Byte := BitVec 8

/-- A command word, delivered as a 32-bit number (R8 `CMDW`, R60). -/
abbrev CmdWord := BitVec 32

/-- A double-width accumulator (R7 `ACCW`). -/
abbrev Acc := BitVec 128

/-- The number of a field-element register, `f0` to `f15` (R22). -/
abbrev Reg := Fin 16

/-- The number of a 32-byte slot of the buffer (R43). -/
abbrev Slot := Fin 16

/-- A byte address of the buffer, 0 to 511 (R40). -/
abbrev Addr := Fin 512

/-- A FieldElement: "an ordered sequence of exactly 5 unsigned 64-bit integers (limbs)" (R21). Every bit pattern is
a storable value; no invariant is attached. -/
structure FieldElement where
  v0 : Word
  v1 : Word
  v2 : Word
  v3 : Word
  v4 : Word
  deriving DecidableEq, Repr

end Sys2Proof
end

