-- ==== Sys2Proof/Syntax.lean ====
section
/-! DEFINITION. The syntax: the fields of format C (`30_encoding.md` R60, R61), the nine commands (R63), and what
decoding a word answers (R62). -/

namespace Sys2Proof

/-- The fields of a command word, format C (R60), before any check. -/
structure Fields where
  op   : BitVec 8
  rd   : BitVec 4
  rs1  : BitVec 4
  rs2  : BitVec 4
  slot : BitVec 4
  zero : BitVec 7
  flag : BitVec 1
  deriving DecidableEq, Repr

/-- The nine commands of R63, in its order, with their operands in the order of the assembler syntax (R69).
Register and slot numbers are in range by type: "every value of a used field names an existing register or slot"
(R61). -/
inductive Instr where
  /-- `ADD fd, fa, fb`, op 0x01 (R90). -/
  | add (rd rs1 rs2 : Reg)
  /-- `SUB fd, fa, fb`, op 0x02 (R92). -/
  | sub (rd rs1 rs2 : Reg)
  /-- `NEG fd, fa`, op 0x03 (R93). -/
  | neg (rd rs1 : Reg)
  /-- `MUL fd, fa, fb`, op 0x04 (R100). -/
  | mul (rd rs1 rs2 : Reg)
  /-- `SQR fd, fa`, op 0x05 (R103). -/
  | sqr (rd rs1 : Reg)
  /-- `SQR2 fd, fa`, op 0x06 (R105). -/
  | sqr2 (rd rs1 : Reg)
  /-- `CMOV fd, fa, flag`, op 0x07 (R115). -/
  | cmov (rd rs1 : Reg) (flag : BitVec 1)
  /-- `FROMB fd, slot`, op 0x08 (R120). -/
  | fromb (rd : Reg) (slot : Slot)
  /-- `TOB slot, fa`, op 0x09 (R123). -/
  | tob (slot : Slot) (rs1 : Reg)
  deriving DecidableEq, Repr

/-- Why a word is `Illegal`. The reason is the decoder's own report: the block records only the word, so the order
of checking cannot be seen (R146). -/
inductive IllegalReason where
  /-- `op` is 0x00 or 0x0A .. 0xFF (R66). -/
  | unassignedOpcode
  /-- `op` is assigned but a field the command does not use, or `zero`, is not 0 (R65). -/
  | unusedFieldNonzero
  deriving DecidableEq, Repr

/-- "Decoding is a total function from 32-bit words to either one of the nine commands with its operand values or
`Illegal`" (R62). -/
inductive Decoded where
  | command (i : Instr)
  | illegal (why : IllegalReason)
  deriving DecidableEq, Repr

end Sys2Proof
end

