-- ==== Sys2Proof/WellFormed.lean ====
section
/-! DEFINITION. Which fields make a command (`30_encoding.md` R63, R65): written from the "used fields" column of
R63, apart from the decoder, so that the two can be held against each other (Sys2Proof/Laws/Decode.lean). A command
as a term of Instr needs no further check: its operands are in range by type (R61). -/

namespace Sys2Proof

/-- Fields are well formed when `op` is assigned, `zero` is 0 and every field the command does not use is 0
(R65: "An unused field must be 0"). -/
def Fields.wellFormed (c : Fields) : Bool :=
  c.zero == 0 &&
    match c.op with
    | 0x01 | 0x02 | 0x04 => c.slot == 0 && c.flag == 0
    | 0x03 | 0x05 | 0x06 => c.rs2 == 0 && c.slot == 0 && c.flag == 0
    | 0x07 => c.rs2 == 0 && c.slot == 0
    | 0x08 => c.rs1 == 0 && c.rs2 == 0 && c.flag == 0
    | 0x09 => c.rd == 0 && c.rs2 == 0 && c.flag == 0
    | _ => false

end Sys2Proof
end

