-- ==== Sys2Proof/Decode.lean ====
section
/-! DEFINITION. Decoding, total on every 32-bit word (`30_encoding.md` R60 to R66), and the encoder, its inverse
(R64). A word is delivered as a number, so no byte order enters (R60). -/

namespace Sys2Proof

/-- Field extraction (R61): `op = w[31:24]`, `rd = w[23:20]`, `rs1 = w[19:16]`, `rs2 = w[15:12]`,
`slot = w[11:8]`, `zero = w[7:1]`, `flag = w[0]`. -/
def fieldsOf (w : CmdWord) : Fields where
  op   := w.extractLsb' 24 8
  rd   := w.extractLsb' 20 4
  rs1  := w.extractLsb' 16 4
  rs2  := w.extractLsb' 12 4
  slot := w.extractLsb' 8 4
  zero := w.extractLsb' 1 7
  flag := w.extractLsb' 0 1

/-- The command `i` when the check that every field it does not use is 0 holds, otherwise `Illegal` (R65). -/
def commandIf (unusedZero : Bool) (i : Instr) : Decoded :=
  if unusedZero then .command i else .illegal .unusedFieldNonzero

/-- The opcode map (R63) with the must-be-zero check of R65 per row. -/
def decodeFields (c : Fields) : Decoded :=
  match c.op with
  | 0x01 => commandIf (c.slot == 0 && c.zero == 0 && c.flag == 0) (.add c.rd.toFin c.rs1.toFin c.rs2.toFin)
  | 0x02 => commandIf (c.slot == 0 && c.zero == 0 && c.flag == 0) (.sub c.rd.toFin c.rs1.toFin c.rs2.toFin)
  | 0x03 => commandIf (c.rs2 == 0 && c.slot == 0 && c.zero == 0 && c.flag == 0) (.neg c.rd.toFin c.rs1.toFin)
  | 0x04 => commandIf (c.slot == 0 && c.zero == 0 && c.flag == 0) (.mul c.rd.toFin c.rs1.toFin c.rs2.toFin)
  | 0x05 => commandIf (c.rs2 == 0 && c.slot == 0 && c.zero == 0 && c.flag == 0) (.sqr c.rd.toFin c.rs1.toFin)
  | 0x06 => commandIf (c.rs2 == 0 && c.slot == 0 && c.zero == 0 && c.flag == 0) (.sqr2 c.rd.toFin c.rs1.toFin)
  | 0x07 => commandIf (c.rs2 == 0 && c.slot == 0 && c.zero == 0) (.cmov c.rd.toFin c.rs1.toFin c.flag)
  | 0x08 => commandIf (c.rs1 == 0 && c.rs2 == 0 && c.zero == 0 && c.flag == 0) (.fromb c.rd.toFin c.slot.toFin)
  | 0x09 => commandIf (c.rd == 0 && c.rs2 == 0 && c.zero == 0 && c.flag == 0) (.tob c.slot.toFin c.rs1.toFin)
  | _ => .illegal .unassignedOpcode

/-- Decoding a command word (R62). -/
def decode (w : CmdWord) : Decoded := decodeFields (fieldsOf w)

/-- The fields of a command, every unused one 0 (R64, R65). -/
def encodeFields : Instr → Fields
  | .add rd rs1 rs2   => ⟨0x01, .ofFin rd, .ofFin rs1, .ofFin rs2, 0, 0, 0⟩
  | .sub rd rs1 rs2   => ⟨0x02, .ofFin rd, .ofFin rs1, .ofFin rs2, 0, 0, 0⟩
  | .neg rd rs1       => ⟨0x03, .ofFin rd, .ofFin rs1, 0, 0, 0, 0⟩
  | .mul rd rs1 rs2   => ⟨0x04, .ofFin rd, .ofFin rs1, .ofFin rs2, 0, 0, 0⟩
  | .sqr rd rs1       => ⟨0x05, .ofFin rd, .ofFin rs1, 0, 0, 0, 0⟩
  | .sqr2 rd rs1      => ⟨0x06, .ofFin rd, .ofFin rs1, 0, 0, 0, 0⟩
  | .cmov rd rs1 flag => ⟨0x07, .ofFin rd, .ofFin rs1, 0, 0, 0, flag⟩
  | .fromb rd slot    => ⟨0x08, .ofFin rd, 0, 0, .ofFin slot, 0, 0⟩
  | .tob slot rs1     => ⟨0x09, 0, .ofFin rs1, 0, .ofFin slot, 0, 0⟩

/-- The word of seven fields, most significant first, at the bit positions of R60. -/
def wordOf (c : Fields) : CmdWord :=
  c.op ++ c.rd ++ c.rs1 ++ c.rs2 ++ c.slot ++ c.zero ++ c.flag

/-- Encoding, "the inverse of rule R62" (R64). -/
def encode (i : Instr) : CmdWord := wordOf (encodeFields i)

/-- What the decoder reads from a row of the opcode table: its `nbits` bits are the low bits of the command word,
every higher bit 0; `none` where the word is `Illegal`. -/
def decodeTableWord (nbits w : Nat) : Option Instr :=
  match decode (BitVec.ofNat 32 (w % 2 ^ nbits)) with
  | .command i => some i
  | .illegal _ => none

end Sys2Proof
end

