-- ==== Sys2Proof/Machine/Operands.lean ====
section
/-! DEFINITION. Operands: the limbs of a field element and the integer it represents (`00_scope.md` R11), slot
addresses (`20_memory.md` R43), and the 32-byte little-endian number (`20_memory.md` R41). -/

namespace Sys2Proof.Machine

/-- `f[r][i]`: limb `i` of a field element (R11). -/
def limb (x : FieldElement) (i : Fin 5) : Word :=
  match i with
  | 0 => x.v0
  | 1 => x.v1
  | 2 => x.v2
  | 3 => x.v3
  | 4 => x.v4

/-- The field element whose limb `i` is `g i`: the pseudocode's `for i in 0..4`. -/
def ofLimbs (g : Fin 5 → Word) : FieldElement := ⟨g 0, g 1, g 2, g 3, g 4⟩

/-- Replace limb `i` (R48 `HostWriteLimb`). -/
def setLimb (x : FieldElement) (i : Fin 5) (v : Word) : FieldElement :=
  match i with
  | 0 => { x with v0 := v }
  | 1 => { x with v1 := v }
  | 2 => { x with v2 := v }
  | 3 => { x with v3 := v }
  | 4 => { x with v4 := v }

/-- `value(x)`, exact over the naturals whatever the limbs hold (R11, R21). -/
def value (x : FieldElement) : Nat :=
  x.v0.toNat + x.v1.toNat * 2 ^ 51 + x.v2.toNat * 2 ^ 102 + x.v3.toNat * 2 ^ 153 + x.v4.toNat * 2 ^ 204

/-- The buffer address of byte `j` of slot `s`: `32·s + j` (R41, R43). -/
def slotAddr (s : Slot) (j : Fin 32) : Addr := ⟨32 * s.val + j.val, by omega⟩

/-- `le256(bs) = Σ bs[j]·2^(8j)`: byte 0 is the least significant (R11, R41). -/
def le256 : List Byte → Nat
  | [] => 0
  | b :: bs => b.toNat + 2 ^ 8 * le256 bs

/-- `bytes32(n)`: byte `j` is `(n >> (8·j)) AND 0xFF` (R11, R125). -/
def bytes32 (n : Nat) : List Byte :=
  (List.range 32).map fun j => BitVec.ofNat 8 ((n >>> (8 * j)) &&& 0xFF)

end Sys2Proof.Machine
end

