-- ==== Sys2Proof/Machine/Datapath.lean ====
section
/-! DEFINITION. The datapath: the carry pass, the fold of double-width accumulators (`40_datapath_primitives.md` R80
to R86), the limb formulas of the commands (`41_add_sub_neg.md`, `42_mul_sqr.md`, `43_cmov.md`) and the codec
(`44_codec.md`). Word arithmetic wraps modulo 2^64 and accumulator arithmetic modulo 2^128 (R80, R81). -/

namespace Sys2Proof.Machine

/-- `MASK51 = 2^51 − 1` (R8). -/
def mask51 : Word := 0x7FFFFFFFFFFFF

/-- `CarryPass` (R83): one pass, rippling from limb 0 to limb 4, the top carry times 19 into limb 0. -/
def carryPass (x : FieldElement) : FieldElement :=
  let t1 := x.v1 + (x.v0 >>> 51)
  let t0 := x.v0 &&& mask51
  let t2 := x.v2 + (t1 >>> 51)
  let t1 := t1 &&& mask51
  let t3 := x.v3 + (t2 >>> 51)
  let t2 := t2 &&& mask51
  let t4 := x.v4 + (t3 >>> 51)
  let t3 := t3 &&& mask51
  let t0 := t0 + (19 : Word) * (t4 >>> 51)
  let t4 := t4 &&& mask51
  ⟨t0, t1, t2, t3, t4⟩

/-- Five 128-bit accumulators; `acc[k]` carries weight `2^(51·k)` (R85). -/
structure Accs where
  a0 : Acc
  a1 : Acc
  a2 : Acc
  a3 : Acc
  a4 : Acc
  deriving DecidableEq, Repr

/-- The carry out of an accumulator, `u64(acc >> 51)` (R85, `90_conflicts.md` C5). -/
def accCarry (a : Acc) : Word := (a >>> 51).setWidth 64

/-- The part of an accumulator that stays, `acc AND MASK51` (R85). -/
def accLow (a : Acc) : Word := a.setWidth 64 &&& mask51

/-- `Fold128` (R85): all five carries from the accumulators as they stand, in parallel. -/
def fold128 (a : Accs) : FieldElement :=
  ⟨accLow a.a0 + 19 * accCarry a.a4, accLow a.a1 + accCarry a.a0, accLow a.a2 + accCarry a.a1,
    accLow a.a3 + accCarry a.a2, accLow a.a4 + accCarry a.a3⟩

/-- `Reduce128(acc) = CarryPass(Fold128(acc))` (R86). -/
def reduce128 (a : Accs) : FieldElement := carryPass (fold128 a)

/-- The widening product of two 64-bit numbers, exact in 128 bits (R80). -/
def widen (x y : Word) : Acc := x.setWidth 128 * y.setWidth 128

/-- ADD (R90): limb-wise sums, no carry between limbs. -/
def addLimbs (a b : FieldElement) : FieldElement := ofLimbs fun i => limb a i + limb b i

/-- The subtraction constants `K_i`, the limbs of `2p` (R91). -/
def kConst (i : Fin 5) : Word :=
  match i with
  | 0 => 0xFFFFFFFFFFFDA
  | _ => 0xFFFFFFFFFFFFE

/-- SUB (R92): `out[i] = (a[i] + K_i) − t[i]` with `t = CarryPass(b)`. -/
def subLimbs (a b : FieldElement) : FieldElement :=
  ofLimbs fun i => limb a i + kConst i - limb (carryPass b) i

/-- NEG (R93): `out[i] = K_i − t[i]` with `t = CarryPass(a)`. -/
def negLimbs (a : FieldElement) : FieldElement := ofLimbs fun i => kConst i - limb (carryPass a) i

/-- The accumulators of MUL (R100): 25 products, the first operand of a wrapped one pre-multiplied by 19. -/
def mulAccs (a b : FieldElement) : Accs :=
  let a19_1 := 19 * a.v1
  let a19_2 := 19 * a.v2
  let a19_3 := 19 * a.v3
  let a19_4 := 19 * a.v4
  { a0 := widen a.v0 b.v0 + widen a19_1 b.v4 + widen a19_2 b.v3 + widen a19_3 b.v2 + widen a19_4 b.v1
    a1 := widen a.v0 b.v1 + widen a.v1 b.v0 + widen a19_2 b.v4 + widen a19_3 b.v3 + widen a19_4 b.v2
    a2 := widen a.v0 b.v2 + widen a.v1 b.v1 + widen a.v2 b.v0 + widen a19_3 b.v4 + widen a19_4 b.v3
    a3 := widen a.v0 b.v3 + widen a.v1 b.v2 + widen a.v2 b.v1 + widen a.v3 b.v0 + widen a19_4 b.v4
    a4 := widen a.v0 b.v4 + widen a.v1 b.v3 + widen a.v2 b.v2 + widen a.v3 b.v1 + widen a.v4 b.v0 }

/-- MUL (R100). -/
def mulLimbs (a b : FieldElement) : FieldElement := reduce128 (mulAccs a b)

/-- The accumulators of SQR (R103): 15 products with the seven scaled copies of the rule. -/
def sqrAccs (a : FieldElement) : Accs :=
  let a0_2 := 2 * a.v0
  let a1_2 := 2 * a.v1
  let a1_38 := 38 * a.v1
  let a2_38 := 38 * a.v2
  let a3_38 := 38 * a.v3
  let a3_19 := 19 * a.v3
  let a4_19 := 19 * a.v4
  { a0 := widen a.v0 a.v0 + widen a1_38 a.v4 + widen a2_38 a.v3
    a1 := widen a0_2 a.v1 + widen a2_38 a.v4 + widen a3_19 a.v3
    a2 := widen a0_2 a.v2 + widen a.v1 a.v1 + widen a3_38 a.v4
    a3 := widen a0_2 a.v3 + widen a1_2 a.v2 + widen a4_19 a.v4
    a4 := widen a0_2 a.v4 + widen a1_2 a.v3 + widen a.v2 a.v2 }

/-- SQR (R103). -/
def sqrLimbs (a : FieldElement) : FieldElement := reduce128 (sqrAccs a)

/-- SQR2 (R105): the limbs SQR would write, doubled limb by limb. -/
def sqr2Limbs (a : FieldElement) : FieldElement :=
  let s := sqrLimbs a
  ofLimbs fun i => limb s i + limb s i

/-- CMOV (R115): `f[i] XOR (mask AND (f[i] XOR g[i]))` with `mask = u64(0 − flag)`. -/
def cmovLimbs (flag : BitVec 1) (f g : FieldElement) : FieldElement :=
  let mask : Word := 0 - flag.setWidth 64
  ofLimbs fun i => limb f i ^^^ (mask &&& (limb f i ^^^ limb g i))

/-- FROMB (R120): limb `i` is bits `51i+50 .. 51i` of the 256-bit number; bit 255 falls in no window. -/
def frombLimbs (n : Nat) : FieldElement :=
  ofLimbs fun i => BitVec.ofNat 64 ((n >>> (51 * i.val)) &&& mask51.toNat)

/-- TOB step B (R123): the carry out of limb 4 of the trial addition of 19; only carries are kept. -/
def trialCarry (t : FieldElement) : Word :=
  let c := (t.v0 + 19) >>> 51
  let c := (t.v1 + c) >>> 51
  let c := (t.v2 + c) >>> 51
  let c := (t.v3 + c) >>> 51
  (t.v4 + c) >>> 51

/-- TOB step D (R123): a rippling pass whose carry out of limb 4 is discarded. -/
def finalPass (t : FieldElement) : FieldElement :=
  let t1 := t.v1 + (t.v0 >>> 51)
  let t0 := t.v0 &&& mask51
  let t2 := t.v2 + (t1 >>> 51)
  let t1 := t1 &&& mask51
  let t3 := t.v3 + (t2 >>> 51)
  let t2 := t2 &&& mask51
  let t4 := t.v4 + (t3 >>> 51)
  let t3 := t3 &&& mask51
  let t4 := t4 &&& mask51
  ⟨t0, t1, t2, t3, t4⟩

/-- TOB steps A to D (R123): full reduction. -/
def tobLimbs (a : FieldElement) : FieldElement :=
  let t := carryPass a
  finalPass { t with v0 := t.v0 + 19 * trialCarry t }

end Sys2Proof.Machine
end

