-- ==== Sys2Proof/Config.lean ====
section
/-! DEFINITION. The free values: what the spec leaves open and no proof may know. Both constants have no body.
The open parameters `LAT(op)` and `HostBinding` (R169, R50) are not here: no rule depends on them. -/

namespace Sys2Proof.Config

/-- DESIGN CHOICE (log entry 1). What limb `i` of register `r` holds after the `n`-th reset (`n = 0` for the
state the model starts in): "unspecified", "stable", and "A model must not take zero" (R26, R160, U4). -/
opaque freeLimb : Nat → Reg → Fin 5 → Word

/-- DESIGN CHOICE (log entry 1). What the buffer byte at address `a` holds after the `n`-th reset while
nothing has written it: "unspecified, stable, exactly as rule R26 says for registers" (R33). -/
opaque freeByte : Nat → Addr → Byte

end Sys2Proof.Config
end

