-- ==== Sys2Proof/Machine/State.lean ====
section
/-! DEFINITION. The state of the block as plain data (`10_state.md` R20), what the host can ask of it and be told
(`20_memory.md` R48), the reasons a step could stop, and the state after reset (R160). -/

namespace Sys2Proof.Machine

/-- The byte buffer: the bytes written since the last reset, as (address, byte) pairs with strictly rising
addresses. An address that is not listed has no known value; reading it gives the free value of
`Config.freeByte` (log entry 2). -/
abbrev Memory := List Host.Cell

/-- The seven host operations of R48, with argument types that hold only in-range values (U9). -/
inductive HostOp where
  /-- `HostReset`. `abandoned` is the command word that was executing when the reset arrived, if any: "A reset that
  arrives while a command is executing abandons the command" (R161). -/
  | reset (abandoned : Option CmdWord)
  /-- `HostCmd(w)`. -/
  | cmd (w : CmdWord)
  /-- `HostWriteByte(a, b)`. -/
  | writeByte (a : Addr) (b : Byte)
  /-- `HostReadByte(a)`. -/
  | readByte (a : Addr)
  /-- `HostWriteLimb(r, i, v)`. -/
  | writeLimb (r : Reg) (i : Fin 5) (v : Word)
  /-- `HostReadLimb(r, i)`. -/
  | readLimb (r : Reg) (i : Fin 5)
  /-- `HostReadStatus(n)`: 0 is `STATUS`, 1 is `ERRCMD`. -/
  | readStatus (n : Fin 2)
  deriving DecidableEq, Repr

/-- What a host operation returns (the "returns" column of R48). -/
inductive Reply where
  | nothing
  /-- A legal command completed (R141). -/
  | ok
  /-- A command word was rejected (R141). -/
  | err
  | byte (b : Byte)
  | limb (v : Word)
  | status (w : BitVec 32)
  deriving DecidableEq, Repr

/-- The state. `regs`, `buf`, `err` and `errcmd` are the block's (R20); `resets`, `pending` and `reply` are the
model's own bookkeeping (log entries 3, 4, 5). -/
structure State where
  /-- The field-element registers `f[0..15]` (R21, R22). -/
  regs : Vector FieldElement 16
  /-- The byte buffer `BUF[0..511]` (R40). -/
  buf : Memory
  /-- `STATUS.ERR`; bits 31:1 of `STATUS` are hard-wired 0 and so no state (R30). -/
  err : Bool
  /-- `ERRCMD` (R31). -/
  errcmd : BitVec 32
  /-- How many `HostReset`s have happened: it selects the free contents of registers and buffer. -/
  resets : Nat
  /-- The host operations of the run that are not applied yet, the next one first (R166). -/
  pending : List HostOp
  /-- What the last host operation returned. -/
  reply : Reply
  deriving DecidableEq, Repr

/-- No reason to stop with a fault exists: the one exception, IllegalCommand, is taken as a next state, and no other
condition can be spelled (R143, R152). The type is empty, which is safe: a step cannot end here. -/
inductive Fault where
  deriving DecidableEq, Repr

/-- The reasons a step is refused. -/
inductive Refusal where
  /-- Only an arm of `exec` whose instruction has no meaning yet would raise it; no arm does. Safe. -/
  | notModelled (mnemonic : String)
  deriving DecidableEq, Repr

/-- The register file after the `n`-th reset: every limb a free value (R26, log entry 1). -/
def freeRegs (n : Nat) : Vector FieldElement 16 :=
  Vector.ofFn fun r =>
    ⟨Config.freeLimb n r 0, Config.freeLimb n r 1, Config.freeLimb n r 2, Config.freeLimb n r 3, Config.freeLimb n r 4⟩

/-- The state after reset: `STATUS.ERR = 0`, `ERRCMD = 0`, every limb and every byte unspecified, and the block idle
(R160, R162). -/
def State.reset : State where
  regs := freeRegs 0
  buf := []
  err := false
  errcmd := 0
  resets := 0
  pending := []
  reply := .nothing

end Sys2Proof.Machine
end

