-- ==== Sys2Proof/Machine/Flags.lean ====
section
/-! DEFINITION. The status registers. The block has no condition codes and no flag computation of any kind: "No
command sets a flag as a side effect and no command reads one" (`10_state.md` R28). What it has is `STATUS`, with the
one sticky bit `ERR`, and `ERRCMD` (R29 to R31). -/

namespace Sys2Proof.Machine

/-- `STATUS` as read: bit 0 is `ERR`, bits 31:1 are hard-wired 0 (R30). -/
def State.statusWord (s : State) : BitVec 32 := if s.err then 1 else 0

/-- The status register number `n`: 0 is `STATUS`, 1 is `ERRCMD` (R48 `HostReadStatus`). -/
def State.statusReg (s : State) (n : Fin 2) : BitVec 32 :=
  match n with
  | 0 => s.statusWord
  | 1 => s.errcmd

end Sys2Proof.Machine
end

