-- ==== Sys2Proof/Machine/Ops.lean ====
section
/-! DEFINITION. The named operations over registers, buffer and status, taking the one exception
(`60_exceptions.md` R141) and the reset (`70_reset_and_hazards.md` R160). Every read and write of the state goes
through these. There is no return from exception: "There is no return-from-trap command and nothing to restore"
(R148). -/

namespace Sys2Proof.Machine

/-- `f[r]`: all five limbs of a register (R11). -/
def State.reg (s : State) (r : Reg) : FieldElement := s.regs[r.val]

/-- `f[r] <- x`: all five limbs at once; no other effect (R11, R25). -/
def State.setReg (s : State) (r : Reg) (x : FieldElement) : State := { s with regs := s.regs.set r.val x }

/-- What is known of the byte at address `a`: `none` when nothing has written it since the last reset. -/
def Memory.lookup (a : Nat) : Memory → Option Byte
  | [] => none
  | c :: m => if c.1 = a then some c.2 else Memory.lookup a m

/-- Write one byte, keeping the addresses strictly rising. -/
def Memory.store (a : Nat) (b : Byte) : Memory → Memory
  | [] => [(a, b)]
  | c :: m => if a < c.1 then (a, b) :: c :: m else if a = c.1 then (a, b) :: m else c :: Memory.store a b m

/-- Write a list of bytes to rising addresses from `a` (R11 `MemWrite`). -/
def Memory.storeList (a : Nat) : List Byte → Memory → Memory
  | [], m => m
  | b :: bs, m => Memory.storeList (a + 1) bs (Memory.store a b m)

/-- Strictly rising addresses, all above `lo` when one is given. -/
def Memory.risingFrom (lo : Option Nat) : Memory → Bool
  | [] => true
  | c :: m => (match lo with | none => true | some l => decide (l < c.1)) && Memory.risingFrom (some c.1) m

/-- The canonical form of the buffer: addresses strictly rising and all inside `0 .. 511` (R40). No entry is equal
to what an unlisted address holds, because an unlisted address has no known value (log entry 2). -/
def Memory.wf (m : Memory) : Bool := Memory.risingFrom none m && m.all fun c => decide (c.1 < 512)

/-- `BUF[a]`: the byte written last, or the free value nothing has overwritten since the last reset (R47, R33). -/
def State.byte (s : State) (a : Addr) : Byte := (Memory.lookup a.val s.buf).getD (Config.freeByte s.resets a)

/-- `BUF[a] <- b` (R48 `HostWriteByte`). -/
def State.setByte (s : State) (a : Addr) (b : Byte) : State := { s with buf := Memory.store a.val b s.buf }

/-- `MemRead(32·slot, 32)`: the 32 bytes of a slot, byte 0 first (R11, R43, R44). -/
def State.slotBytes (s : State) (slot : Slot) : List Byte :=
  (List.finRange 32).map fun j => s.byte (slotAddr slot j)

/-- `MemWrite(32·slot, 32, bs)` for a list of 32 bytes (R11, R43, R44). -/
def State.setSlot (s : State) (slot : Slot) (bs : List Byte) : State :=
  { s with buf := Memory.storeList (slotAddr slot 0).val bs s.buf }

/-- Taking IllegalCommand, its whole effect (R141): `if STATUS.ERR = 0 then ERRCMD <- w`; `STATUS.ERR <- 1`;
`respond err`. It saves nothing else, changes no mode and transfers control nowhere (R147). -/
def State.raiseIllegal (s : State) (w : CmdWord) : State :=
  { s with err := true, errcmd := if s.err then s.errcmd else w, reply := .err }

/-- `HostReset` (R160): `ERR` and `ERRCMD` cleared, every limb and byte unspecified: fresh free values. -/
def State.hostReset (s : State) : State :=
  { s with
    regs := freeRegs (s.resets + 1), buf := [], err := false, errcmd := 0, resets := s.resets + 1, reply := .nothing }

/-- Answer the host. -/
def State.respond (s : State) (r : Reply) : State := { s with reply := r }

end Sys2Proof.Machine
end

