-- ==== Sys2Proof/Machine/Additive.lean ====
section
/-! DEFINITION. The additive commands ADD, SUB, NEG (`41_add_sub_neg.md`). Sources are read before the destination
is written (R88); nothing but `f[rd]` changes (R89). -/

namespace Sys2Proof.Machine

/-- `ADD fd, fa, fb` (R90). -/
def execAdd (rd rs1 rs2 : Reg) (s : State) : Host.Outcome State Fault Refusal :=
  .next (s.setReg rd (addLimbs (s.reg rs1) (s.reg rs2)))

/-- `SUB fd, fa, fb` (R92). -/
def execSub (rd rs1 rs2 : Reg) (s : State) : Host.Outcome State Fault Refusal :=
  .next (s.setReg rd (subLimbs (s.reg rs1) (s.reg rs2)))

/-- `NEG fd, fa` (R93). -/
def execNeg (rd rs1 : Reg) (s : State) : Host.Outcome State Fault Refusal :=
  .next (s.setReg rd (negLimbs (s.reg rs1)))

end Sys2Proof.Machine
end

