-- ==== Sys2Proof/Machine/Codec.lean ====
section
/-! DEFINITION. The codec, the block's only load and store: FROMB and TOB (`44_codec.md`). -/

namespace Sys2Proof.Machine

/-- `FROMB fd, slot` (R120): every 32-byte content is accepted (R121). -/
def execFromb (rd : Reg) (slot : Slot) (s : State) : Host.Outcome State Fault Refusal :=
  .next (s.setReg rd (frombLimbs (le256 (s.slotBytes slot))))

/-- `TOB slot, fa` (R123, R125): all 32 bytes of the slot are written. -/
def execTob (slot : Slot) (rs1 : Reg) (s : State) : Host.Outcome State Fault Refusal :=
  .next (s.setSlot slot (bytes32 (value (tobLimbs (s.reg rs1)))))

end Sys2Proof.Machine
end

