-- ==== Sys2Proof/Machine/Multiplicative.lean ====
section
/-! DEFINITION. The multiplicative commands MUL, SQR, SQR2 (`42_mul_sqr.md`). Sources are read before the
destination is written (R88); nothing but `f[rd]` changes (R89). -/

namespace Sys2Proof.Machine

/-- `MUL fd, fa, fb` (R100). -/
def execMul (rd rs1 rs2 : Reg) (s : State) : Host.Outcome State Fault Refusal :=
  .next (s.setReg rd (mulLimbs (s.reg rs1) (s.reg rs2)))

/-- `SQR fd, fa` (R103). -/
def execSqr (rd rs1 : Reg) (s : State) : Host.Outcome State Fault Refusal :=
  .next (s.setReg rd (sqrLimbs (s.reg rs1)))

/-- `SQR2 fd, fa` (R105). -/
def execSqr2 (rd rs1 : Reg) (s : State) : Host.Outcome State Fault Refusal :=
  .next (s.setReg rd (sqr2Limbs (s.reg rs1)))

end Sys2Proof.Machine
end

