-- ==== Sys2Proof/Machine/Select.lean ====
section
/-! DEFINITION. The conditional move CMOV (`43_cmov.md`). -/

namespace Sys2Proof.Machine

/-- `CMOV fd, fa, flag` (R115). The destination is read and written for both flag values (R116, R117). -/
def execCmov (rd rs1 : Reg) (flag : BitVec 1) (s : State) : Host.Outcome State Fault Refusal :=
  .next (s.setReg rd (cmovLimbs flag (s.reg rd) (s.reg rs1)))

end Sys2Proof.Machine
end

