-- ==== Sys2Proof/Machine/Dispatch.lean ====
section
/-! DEFINITION. One arm per command of `30_encoding.md` R63, each one call of its meaning. -/

namespace Sys2Proof.Machine

/-- What a command does to the state (R46: one atomic step). -/
def exec (i : Instr) (s : State) : Host.Outcome State Fault Refusal :=
  match i with
  | .add rd rs1 rs2 => Sys2Proof.Machine.execAdd rd rs1 rs2 s
  | .sub rd rs1 rs2 => Sys2Proof.Machine.execSub rd rs1 rs2 s
  | .neg rd rs1 => Sys2Proof.Machine.execNeg rd rs1 s
  | .mul rd rs1 rs2 => Sys2Proof.Machine.execMul rd rs1 rs2 s
  | .sqr rd rs1 => Sys2Proof.Machine.execSqr rd rs1 s
  | .sqr2 rd rs1 => Sys2Proof.Machine.execSqr2 rd rs1 s
  | .cmov rd rs1 flag => Sys2Proof.Machine.execCmov rd rs1 flag s
  | .fromb rd slot => Sys2Proof.Machine.execFromb rd slot s
  | .tob slot rs1 => Sys2Proof.Machine.execTob slot rs1 s

end Sys2Proof.Machine
end

