-- ==== Sys2Proof/Machine/HostOps.lean ====
section
/-! DEFINITION. The host operations of `20_memory.md` R48, each atomic, with what each returns. -/

namespace Sys2Proof.Machine

/-- `HostCmd(w)`: "decode `w`; execute it, or raise IllegalCommand", and respond `ok` or `err` (R48, R141). -/
def hostCmd (w : CmdWord) (s : State) : Host.Outcome State Fault Refusal :=
  match decode w with
  | .command i =>
    match exec i s with
    | .next t => .next (t.respond .ok)
    | .fault f => .fault f
    | .refused r => .refused r
  | .illegal _ => .next (s.raiseIllegal w)

/-- One host operation (R48). A reset abandons the command that was executing, if any, without a response to it
(R161). -/
def hostOp (o : HostOp) (s : State) : Host.Outcome State Fault Refusal :=
  match o with
  | .reset _ => .next s.hostReset
  | .cmd w => hostCmd w s
  | .writeByte a b => .next ((s.setByte a b).respond .nothing)
  | .readByte a => .next (s.respond (.byte (s.byte a)))
  | .writeLimb r i v => .next ((s.setReg r (setLimb (s.reg r) i v)).respond .nothing)
  | .readLimb r i => .next (s.respond (.limb (limb (s.reg r) i)))
  | .readStatus n => .next (s.respond (.status (s.statusReg n)))

/-- The next pending operation, taken from the list and applied; with none pending "the block is idle and keeps all
its state" (R151, R162). -/
def stepPending (s : State) : Host.Outcome State Fault Refusal :=
  match s.pending with
  | [] => .next s
  | o :: rest => hostOp o { s with pending := rest }

/-- The host presents the command word `w` before anything else that is pending. -/
def State.present (s : State) (w : CmdWord) : State := { s with pending := .cmd w :: s.pending }

end Sys2Proof.Machine
end

