-- ==== Sys2Proof/Machine/Step.lean ====
section
/-! DEFINITION. One step: one host operation (`20_memory.md` R46, R47; `70_reset_and_hazards.md` R166). -/

namespace Sys2Proof.Machine

/-- One step of the machine. -/
def step (s : State) : Host.Outcome State Fault Refusal := stepPending s

/-- `s` with a command word of the opcode table (its `nbits` bits, the bits above them 0) presented as the very next
host operation (log entry 4). -/
def State.withFetchWord (s : State) (nbits w : Nat) : State := s.present (BitVec.ofNat 32 (w % 2 ^ nbits))

end Sys2Proof.Machine
end

