-- ==== Sys2Proof/Safety.lean ====
section
/-! DEFINITION. The terms statements use: the modulus, the bounds of `00_scope.md` R12, what each command needs and
gives (`70_reset_and_hazards.md` R164), which state a command or a host operation may write, the invariant of the
state, and what each command computes in GF(p). Nothing here is state and nothing in the hardware checks it (R12). -/

namespace Sys2Proof.Machine

/-- The modulus `p = 2^255 − 19` (R1, R7). -/
def p : Nat := 2 ^ 255 - 19

/-- `Bnd(x, n)`: every limb is below `2^n` (R12). -/
abbrev Bnd (x : FieldElement) (n : Nat) : Prop := ∀ i : Fin 5, (limb x i).toNat < 2 ^ n

/-- `Tight(x)`: limb 0 is below `2^51 + 2^18`, limbs 1 to 4 below `2^51` (R12). -/
abbrev Tight (x : FieldElement) : Prop :=
  x.v0.toNat < 2 ^ 51 + 2 ^ 18 ∧ x.v1.toNat < 2 ^ 51 ∧ x.v2.toNat < 2 ^ 51 ∧ x.v3.toNat < 2 ^ 51 ∧ x.v4.toNat < 2 ^ 51

/-- `LimbReduced(x)` is `Bnd(x, 51)` (R12). -/
abbrev LimbReduced (x : FieldElement) : Prop := Bnd x 51

/-- `Canonical(x)`: limbs below `2^51` and value below `p`, the document's "reduced form" (R12). -/
abbrev Canonical (x : FieldElement) : Prop := Bnd x 51 ∧ value x < p

/-- `Loose(x)` is `Bnd(x, 54)` (R12). -/
abbrev Loose (x : FieldElement) : Prop := Bnd x 54

/-- The operand condition of the carry pass: limbs 1 to 4 are at most `2^64 − 2^13` (R84). -/
abbrev CarryOk (x : FieldElement) : Prop :=
  x.v1.toNat ≤ 2 ^ 64 - 2 ^ 13 ∧ x.v2.toNat ≤ 2 ^ 64 - 2 ^ 13 ∧ x.v3.toNat ≤ 2 ^ 64 - 2 ^ 13 ∧
    x.v4.toNat ≤ 2 ^ 64 - 2 ^ 13

/-- The top carry `q` of a carry pass in which nothing wraps (R84). -/
def topCarry (x : FieldElement) : Nat :=
  (x.v4.toNat + (x.v3.toNat + (x.v2.toNat + (x.v1.toNat + x.v0.toNat / 2 ^ 51) / 2 ^ 51) / 2 ^ 51) / 2 ^ 51) / 2 ^ 51

/-- Accumulator `k`. -/
def acc (A : Accs) (k : Fin 5) : Acc :=
  match k with
  | 0 => A.a0
  | 1 => A.a1
  | 2 => A.a2
  | 3 => A.a3
  | 4 => A.a4

/-- The precondition of a command (R90, R92, R93, R101, R104, R105, R115, R120, R124): outside it the result is
still the pseudocode's but need not be congruent to anything (R81). -/
def Precondition (i : Instr) (s : State) : Prop :=
  match i with
  | .add _ a b => ∀ k, (limb (s.reg a) k).toNat + (limb (s.reg b) k).toNat < 2 ^ 64
  | .sub _ a b => CarryOk (s.reg b) ∧ ∀ k, (limb (s.reg a) k).toNat < 2 ^ 64 - 2 ^ 52
  | .neg _ a => CarryOk (s.reg a)
  | .mul _ a b => Bnd (s.reg a) 54 ∧ Bnd (s.reg b) 54
  | .sqr _ a => Bnd (s.reg a) 54
  | .sqr2 _ a => Bnd (s.reg a) 54
  | .cmov _ _ _ => True
  | .fromb _ _ => True
  | .tob _ a => CarryOk (s.reg a)

/-- The destination register of a command; TOB has none (R63, R89). -/
def destReg : Instr → Option Reg
  | .add rd _ _ => some rd
  | .sub rd _ _ => some rd
  | .neg rd _ => some rd
  | .mul rd _ _ => some rd
  | .sqr rd _ => some rd
  | .sqr2 rd _ => some rd
  | .cmov rd _ _ => some rd
  | .fromb rd _ => some rd
  | .tob _ _ => none

/-- The destination slot of a command; only TOB has one (R40, R63). -/
def destSlot : Instr → Option Slot
  | .tob slot _ => some slot
  | .add .. => none
  | .sub .. => none
  | .neg .. => none
  | .mul .. => none
  | .sqr .. => none
  | .sqr2 .. => none
  | .cmov .. => none
  | .fromb .. => none

/-- The source registers of a command; CMOV's destination is also a source (R63, R116). -/
def sourceRegs : Instr → List Reg
  | .add _ a b => [a, b]
  | .sub _ a b => [a, b]
  | .neg _ a => [a]
  | .mul _ a b => [a, b]
  | .sqr _ a => [a]
  | .sqr2 _ a => [a]
  | .cmov d a _ => [d, a]
  | .fromb _ _ => []
  | .tob _ a => [a]

/-- The source slot of a command; only FROMB has one (R40, R63). -/
def sourceSlot : Instr → Option Slot
  | .fromb _ slot => some slot
  | .add .. => none
  | .sub .. => none
  | .neg .. => none
  | .mul .. => none
  | .sqr .. => none
  | .sqr2 .. => none
  | .cmov .. => none
  | .tob .. => none

/-- Nothing but register `rd` differs between `s` and `t`; memory is compared byte by byte. -/
structure OnlyRegChanged (rd : Reg) (s t : State) : Prop where
  regs : ∀ r, r ≠ rd → t.reg r = s.reg r
  bytes : ∀ a, t.byte a = s.byte a
  err : t.err = s.err
  errcmd : t.errcmd = s.errcmd
  resets : t.resets = s.resets
  pending : t.pending = s.pending
  reply : t.reply = s.reply

/-- Nothing but the 32 bytes of `slot` differs between `s` and `t`. -/
structure OnlySlotChanged (slot : Slot) (s t : State) : Prop where
  regs : ∀ r, t.reg r = s.reg r
  bytes : ∀ a, (∀ j, a ≠ slotAddr slot j) → t.byte a = s.byte a
  err : t.err = s.err
  errcmd : t.errcmd = s.errcmd
  resets : t.resets = s.resets
  pending : t.pending = s.pending
  reply : t.reply = s.reply

/-- The block's own state is the same in `s` and `t`: every limb, every byte, `STATUS` and `ERRCMD` (R20). -/
structure SameBlock (s t : State) : Prop where
  regs : ∀ r, t.reg r = s.reg r
  bytes : ∀ a, t.byte a = s.byte a
  err : t.err = s.err
  errcmd : t.errcmd = s.errcmd

/-- A word that is not a command (R66). -/
def IllegalWord (w : CmdWord) : Prop := ∃ why, decode w = .illegal why

/-- Whether a host operation may write register `r` (R25, R26, R48): a reset makes every register unspecified, a
command writes its destination, a limb write its register. -/
def writesReg (r : Reg) (o : HostOp) : Bool :=
  match o with
  | .reset _ => true
  | .cmd w =>
    match decode w with
    | .command i => destReg i == some r
    | .illegal _ => false
  | .writeLimb r' _ _ => r' == r
  | .writeByte _ _ => false
  | .readByte _ => false
  | .readLimb _ _ => false
  | .readStatus _ => false

/-- Whether a host operation may write the byte at `a` (R33, R48): a reset, a TOB to the slot that holds `a`, a byte
write to `a`. -/
def writesByte (a : Addr) (o : HostOp) : Bool :=
  match o with
  | .reset _ => true
  | .cmd w =>
    match decode w with
    | .command i =>
      match destSlot i with
      | some slot => a.val / 32 == slot.val
      | none => false
    | .illegal _ => false
  | .writeByte a' _ => a' == a
  | .writeLimb _ _ _ => false
  | .readByte _ => false
  | .readLimb _ _ => false
  | .readStatus _ => false

/-- The invariant of the state: the buffer is in its canonical form, and `ERRCMD` is 0 while `STATUS.ERR` is 0
(R31). -/
def StateInv (s : State) : Prop := Memory.wf s.buf = true ∧ (s.err = false → s.errcmd = 0)

/-- The residue modulo `p` that a register represents (R11, R82). -/
def residue (s : State) (r : Reg) : Nat := value (s.reg r) % p

/-- The residue a command leaves in its destination register, computed in GF(p) from residues and from the number in
a slot (the contracts of R90, R92, R93, R101, R104, R105, R115, R120); `none` for TOB, which writes no register. -/
def fieldResult (i : Instr) (s : State) : Option Nat :=
  match i with
  | .add _ a b => some ((residue s a + residue s b) % p)
  | .sub _ a b => some ((residue s a + (p - residue s b)) % p)
  | .neg _ a => some ((p - residue s a) % p)
  | .mul _ a b => some ((residue s a * residue s b) % p)
  | .sqr _ a => some ((residue s a * residue s a) % p)
  | .sqr2 _ a => some ((2 * (residue s a * residue s a)) % p)
  | .cmov d a flag => some (if flag = 1 then residue s a else residue s d)
  | .fromb _ slot => some (le256 (s.slotBytes slot) % 2 ^ 255 % p)
  | .tob _ _ => none

/-- A caller's upper bounds, per register and limb (R164: "A caller (or a proof) tracks, per register, an upper bound
on each limb"). -/
abbrev Bounds := Reg → Fin 5 → Nat

/-- The bounds hold of the registers. -/
def Within (B : Bounds) (s : State) : Prop := ∀ r k, (limb (s.reg r) k).toNat ≤ B r k

/-- The "needs" column of the table of R164, on bounds. -/
def boundsSuffice (i : Instr) (B : Bounds) : Prop :=
  match i with
  | .add _ a b => ∀ k, B a k + B b k < 2 ^ 64
  | .sub _ a b => (∀ k, k ≠ 0 → B b k ≤ 2 ^ 64 - 2 ^ 13) ∧ ∀ k, B a k < 2 ^ 64 - 2 ^ 52
  | .neg _ a => ∀ k, k ≠ 0 → B a k ≤ 2 ^ 64 - 2 ^ 13
  | .mul _ a b => ∀ k, B a k < 2 ^ 54 ∧ B b k < 2 ^ 54
  | .sqr _ a => ∀ k, B a k < 2 ^ 54
  | .sqr2 _ a => ∀ k, B a k < 2 ^ 54
  | .cmov _ _ _ => True
  | .fromb _ _ => True
  | .tob _ a => ∀ k, k ≠ 0 → B a k ≤ 2 ^ 64 - 2 ^ 13

/-- The "gives" column of the table of R164: the bound on limb `k` of the destination. -/
def boundGiven (i : Instr) (B : Bounds) (k : Fin 5) : Nat :=
  match i with
  | .add _ a b => B a k + B b k
  | .sub _ a _ => B a k + (kConst k).toNat
  | .neg _ _ => (kConst k).toNat
  | .mul _ _ _ => if k = 0 then 2 ^ 51 + 2 ^ 18 - 1 else 2 ^ 51 - 1
  | .sqr _ _ => if k = 0 then 2 ^ 51 + 2 ^ 18 - 1 else 2 ^ 51 - 1
  | .sqr2 _ _ => if k = 0 then 2 ^ 52 + 2 ^ 19 - 1 else 2 ^ 52 - 1
  | .cmov d a _ => max (B d k) (B a k)
  | .fromb _ _ => 2 ^ 51 - 1
  | .tob _ _ => 0

/-- The bounds after a command: its destination gets the bound given, every other register keeps its own (R164). -/
def boundsAfter (i : Instr) (B : Bounds) : Bounds :=
  fun r k => if destReg i = some r then boundGiven i B k else B r k

/-- A program whose every command's needs are met by the bounds tracked through it (R164). -/
def growthChecked : List Instr → Bounds → Prop
  | [], _ => True
  | i :: is, B => boundsSuffice i B ∧ growthChecked is (boundsAfter i B)

/-- The bounds after a program. -/
def boundsThrough : List Instr → Bounds → Bounds
  | [], B => B
  | i :: is, B => boundsThrough is (boundsAfter i B)

/-- The host operations that present a program of commands, one word after another (R166). -/
def presented (is : List Instr) : List HostOp := is.map fun i => .cmd (encode i)

end Sys2Proof.Machine
end

