-- ==== Sys2Proof/Certificates/Slice0/Obligations.lean ====
section
/-! DEFINITION. What is to be proved of the model, from the numbered rules of the spec. -/

namespace Sys2Proof.Machine

/-- The 4-bit field of a word whose lowest bit is `lo`, as a number (R61). -/
def nibble (w : CmdWord) (lo : Nat) : Fin 16 := ⟨w.toNat / 2 ^ lo % 16, Nat.mod_lt _ (by decide)⟩

/-- One row of the opcode map (R63). -/
structure OpcodeRow where
  mask : CmdWord
  pattern : CmdWord
  command : CmdWord → Instr

/-- The opcode map of R63: masks and patterns as the spec prints them, operands by the positions of R61. -/
def opcodeMap : List OpcodeRow :=
  [⟨0xFF000FFF, 0x01000000, fun w => .add (nibble w 20) (nibble w 16) (nibble w 12)⟩,
   ⟨0xFF000FFF, 0x02000000, fun w => .sub (nibble w 20) (nibble w 16) (nibble w 12)⟩,
   ⟨0xFF00FFFF, 0x03000000, fun w => .neg (nibble w 20) (nibble w 16)⟩,
   ⟨0xFF000FFF, 0x04000000, fun w => .mul (nibble w 20) (nibble w 16) (nibble w 12)⟩,
   ⟨0xFF00FFFF, 0x05000000, fun w => .sqr (nibble w 20) (nibble w 16)⟩,
   ⟨0xFF00FFFF, 0x06000000, fun w => .sqr2 (nibble w 20) (nibble w 16)⟩,
   ⟨0xFF00FFFE, 0x07000000, fun w => .cmov (nibble w 20) (nibble w 16) (BitVec.ofNat 1 w.toNat)⟩,
   ⟨0xFF0FF0FF, 0x08000000, fun w => .fromb (nibble w 20) (nibble w 8)⟩,
   ⟨0xFFF0F0FF, 0x09000000, fun w => .tob (nibble w 8) (nibble w 16)⟩]

/-- A row matches a word (R62: `w AND mask = match`). -/
def OpcodeRow.fits (r : OpcodeRow) (w : CmdWord) : Prop := w &&& r.mask = r.pattern

/-- The number R64 gives for a command's word. -/
def encodingNumber : Instr → Nat
  | .add rd a b => 0x01 * 2 ^ 24 + rd.val * 2 ^ 20 + a.val * 2 ^ 16 + b.val * 2 ^ 12
  | .sub rd a b => 0x02 * 2 ^ 24 + rd.val * 2 ^ 20 + a.val * 2 ^ 16 + b.val * 2 ^ 12
  | .neg rd a => 0x03 * 2 ^ 24 + rd.val * 2 ^ 20 + a.val * 2 ^ 16
  | .mul rd a b => 0x04 * 2 ^ 24 + rd.val * 2 ^ 20 + a.val * 2 ^ 16 + b.val * 2 ^ 12
  | .sqr rd a => 0x05 * 2 ^ 24 + rd.val * 2 ^ 20 + a.val * 2 ^ 16
  | .sqr2 rd a => 0x06 * 2 ^ 24 + rd.val * 2 ^ 20 + a.val * 2 ^ 16
  | .cmov rd a flag => 0x07 * 2 ^ 24 + rd.val * 2 ^ 20 + a.val * 2 ^ 16 + flag.toNat
  | .fromb rd slot => 0x08 * 2 ^ 24 + rd.val * 2 ^ 20 + slot.val * 2 ^ 8
  | .tob slot a => 0x09 * 2 ^ 24 + a.val * 2 ^ 16 + slot.val * 2 ^ 8

end Sys2Proof.Machine

open Sys2Proof Sys2Proof.Machine

/-! ## Encoding (`30_encoding.md`) -/

/-- A few words written out in R64 and R66 decode to what they stand for. -/
def Obligations.SpecWordsDecodeAsPrinted : Prop :=
  decode 0x01312000 = .command (.add 3 1 2) ∧ decode 0x02FED000 = .command (.sub 15 14 13) ∧
  decode 0x03320000 = .command (.neg 3 2) ∧ decode 0x04534000 = .command (.mul 5 3 4) ∧
  decode 0x05610000 = .command (.sqr 6 1) ∧ decode 0x06500000 = .command (.sqr2 5 0) ∧
  decode 0x07130001 = .command (.cmov 1 3 1) ∧ decode 0x08F00F00 = .command (.fromb 15 15) ∧
  decode 0x09050200 = .command (.tob 2 5) ∧ IllegalWord 0x00000000 ∧ IllegalWord 0x0A000000 ∧
  IllegalWord 0x01312080 ∧ IllegalWord 0x09150200

/-- R62, with the map of R63 and the fields of R61: a word decodes to the command of a row exactly when
`w AND mask = match` for that row; at most one row matches; if none matches, the word is `Illegal`; `slot` scaled by
32 is the buffer address of FROMB and TOB; `flag` is the 1-bit number. -/
def Obligations.DecodeFollowsTheOpcodeMap : Prop :=
  (∀ w i, decode w = .command i ↔ ∃ row ∈ opcodeMap, row.fits w ∧ i = row.command w) ∧
  (∀ w, IllegalWord w ↔ ∀ row ∈ opcodeMap, ¬ row.fits w) ∧
  (opcodeMap.Pairwise fun r₁ r₂ => ∀ w, ¬ (r₁.fits w ∧ r₂.fits w)) ∧
  ∀ (slot : Slot) (j : Fin 32), (slotAddr slot j).val = 32 * slot.val + j.val

/-- R64: the encoder's word is `op·2^24 + rd·2^20 + rs1·2^16 + rs2·2^12 + slot·2^8 + flag` with every unused field 0;
decoding an encoded command gives the command back, and encoding a decoded legal word gives the word back; with the
rule's own examples. -/
def Obligations.EncodeIsTheInverseOfDecode : Prop :=
  (∀ i, (encode i).toNat = encodingNumber i) ∧ (∀ i, decode (encode i) = .command i) ∧
  (∀ w i, decode w = .command i → encode i = w) ∧
  encode (.add 3 1 2) = 0x01312000 ∧ encode (.sub 15 14 13) = 0x02FED000 ∧ encode (.neg 3 2) = 0x03320000 ∧
  encode (.mul 5 3 4) = 0x04534000 ∧ encode (.sqr 6 1) = 0x05610000 ∧ encode (.sqr2 5 0) = 0x06500000 ∧
  encode (.cmov 1 3 1) = 0x07130001 ∧ encode (.cmov 0 0 0) = 0x07000000 ∧ encode (.fromb 1 0) = 0x08100000 ∧
  encode (.fromb 15 15) = 0x08F00F00 ∧ encode (.tob 2 5) = 0x09050200

/-- R65: a word whose `op` is assigned is a command exactly when `zero`, the fields its command does not use, and
(but for CMOV) `flag` are 0; a word whose `op` is not assigned is `Illegal`; one command, one word. The check is
WellFormed.lean's, written apart from the decoder. -/
def Obligations.UnusedFieldsMustBeZero : Prop :=
  (∀ w w' i, decode w = .command i → decode w' = .command i → w = w') ∧
  ∀ w, (IllegalWord w ↔ (fieldsOf w).wellFormed = false) ∧
    (w.toNat / 2 ^ 24 = 0 ∨ 0x0A ≤ w.toNat / 2 ^ 24 → IllegalWord w) ∧
    (w.toNat / 2 % 2 ^ 7 ≠ 0 → IllegalWord w) ∧
    (w.toNat % 2 ≠ 0 → w.toNat / 2 ^ 24 ≠ 0x07 → IllegalWord w)

/-- Of the 2^32 words exactly 14080 are legal (R66, derived from R63). -/
def Obligations.LegalWordsNumber14080 : Prop :=
  ∃ ws : List CmdWord, ws.Nodup ∧ ws.length = 14080 ∧ ∀ w, w ∈ ws ↔ ¬ IllegalWord w

/-! ## Steps, the exception, status and reset

Host operations reach these statements through the pending list of State, and what the host is told through its
reply: both fields are the model's own (log entries 4 and 5, DESIGN CHOICE), not state the spec gives the block. -/

/-- A step takes the next pending host operation off the list. When it is a command word that decodes to `i`, the
step is `exec i` at the state without that operation, answered `ok`; with nothing pending the block is idle and the
state stays as it is; any other operation is applied by `hostOp`. `withFetchWord` presents a word as the next
operation. The model's choice, not the spec's words: that the run's remaining host operations are a list in State, that
a step with an empty list leaves the state as it is, and that `withFetchWord` puts `HostCmd` in front of the list (log
entry 4, DESIGN CHOICE); and that the response is a field of State (log entry 5, DESIGN CHOICE). -/
def Obligations.StepRunsThePresentedCommand : Prop :=
  (∀ s w rest i t, s.pending = .cmd w :: rest → decode w = .command i →
    exec i { s with pending := rest } = .next t → step s = .next (t.respond .ok)) ∧
  (∀ s, s.pending = [] → step s = .next s) ∧
  (∀ s o rest, s.pending = o :: rest → step s = hostOp o { s with pending := rest }) ∧
  ∀ (s : State) (i : Instr), (s.withFetchWord 32 (encode i).toNat).pending = .cmd (encode i) :: s.pending

/-- R141: IllegalCommand is raised by `HostCmd(w)` for an `Illegal` word and by nothing else; its whole effect is
`if STATUS.ERR = 0 then ERRCMD <- w; STATUS.ERR <- 1; respond err`; no register and no byte changes; a legal command
responds `ok`; the block then accepts the next host operation. -/
def Obligations.IllegalWordRaisesIllegalCommand : Prop :=
  (∀ s w rest, s.pending = .cmd w :: rest → IllegalWord w →
    ∃ t, step s = .next t ∧ t.err = true ∧ t.errcmd = (if s.err = true then s.errcmd else w) ∧ t.reply = .err ∧
      (∀ r, t.reg r = s.reg r) ∧ (∀ a, t.byte a = s.byte a) ∧ t.pending = rest ∧ t.resets = s.resets ∧
      ∃ u, step t = .next u) ∧
  (∀ s w rest i, s.pending = .cmd w :: rest → decode w = .command i → ∃ t, step s = .next t ∧ t.reply = .ok) ∧
  ∀ s o rest t, s.pending = o :: rest → step s = .next t → t.reply = .err → ∃ w, o = .cmd w ∧ IllegalWord w

/-- R30: `STATUS` reads as `ERR` in bit 0 and 0 in bits 31:1; `ERR` is 0 after reset, becomes 1 when a command word
is rejected, and stays 1 until the next reset, whatever host operation comes; reading status register 0 answers
`STATUS` and changes nothing. -/
def Obligations.StatusErrIsStickyUntilReset : Prop :=
  (∀ s : State, s.statusWord.toNat = if s.err = true then 1 else 0) ∧ State.reset.statusWord = 0 ∧
  (∀ s x rest, s.pending = .reset x :: rest → ∃ t, step s = .next t ∧ t.statusWord = 0) ∧
  (∀ s w rest, s.pending = .cmd w :: rest → IllegalWord w → ∃ t, step s = .next t ∧ t.statusWord = 1) ∧
  (∀ s t, s.err = true → (∀ x rest, s.pending ≠ .reset x :: rest) → step s = .next t → t.err = true) ∧
  (∀ s rest, s.pending = .readStatus 0 :: rest →
    ∃ t, step s = .next t ∧ t.reply = .status s.statusWord ∧ SameBlock s t)

/-- R31: `ERRCMD` takes the first illegal word since reset and keeps it; it is 0 after reset; in every state that
meets the invariant it reads as 0 while `STATUS.ERR` is 0; `ERRCMD = 0` with `ERR = 1` after an illegal word from
`ERR = 0` means that word was the all-zero word. -/
def Obligations.ErrcmdKeepsTheFirstIllegalWord : Prop :=
  State.reset.errcmd = 0 ∧
  (∀ s x rest, s.pending = .reset x :: rest → ∃ t, step s = .next t ∧ t.errcmd = 0) ∧
  (∀ s w rest, s.pending = .cmd w :: rest → IllegalWord w → s.err = false →
    ∃ t, step s = .next t ∧ t.errcmd = w ∧ (t.errcmd = 0 → w = 0)) ∧
  (∀ s t, s.err = true → (∀ x rest, s.pending ≠ .reset x :: rest) → step s = .next t → t.errcmd = s.errcmd) ∧
  (∀ s rest, StateInv s → s.err = false → s.pending = .readStatus 1 :: rest →
    ∃ t, step s = .next t ∧ t.reply = .status 0) ∧
  IllegalWord 0

/-- R143: a legal command never raises an exception, never changes `STATUS` or `ERRCMD` and always responds `ok`:
whatever its operands hold (outside any precondition, non-canonical, never written, destination equal to source). -/
def Obligations.LegalCommandsReportNothing : Prop :=
  ∀ s w rest i, s.pending = .cmd w :: rest → decode w = .command i →
    ∃ t, step s = .next t ∧ t.reply = .ok ∧ t.err = s.err ∧ t.errcmd = s.errcmd ∧ t.statusWord = s.statusWord

/-- R148: `STATUS.ERR` stays 1 through every command, legal or not, and every host access, until `HostReset` clears
it; a second illegal word leaves `ERR` at 1 and `ERRCMD` unchanged and responds `err`; legal commands issued while
`ERR` is 1 respond `ok` and execute normally: changing `ERR` and `ERRCMD` before a command changes nothing but `ERR`
and `ERRCMD` after it. -/
def Obligations.ErrStaysAndCommandsStillExecute : Prop :=
  (∀ s t, s.err = true → (∀ x rest, s.pending ≠ .reset x :: rest) → step s = .next t → t.err = true) ∧
  (∀ s x rest, s.pending = .reset x :: rest → ∃ t, step s = .next t ∧ t.err = false) ∧
  (∀ s w rest, s.err = true → s.pending = .cmd w :: rest → IllegalWord w →
    ∃ t, step s = .next t ∧ t.err = true ∧ t.errcmd = s.errcmd ∧ t.reply = .err) ∧
  (∀ s w rest i, s.err = true → s.pending = .cmd w :: rest → decode w = .command i →
    ∃ t, step s = .next t ∧ t.reply = .ok) ∧
  ∀ i s t e c, exec i s = .next t → exec i { s with err := e, errcmd := c } = .next { t with err := e, errcmd := c }

/-- Every step, every command and every run answers a next state, in any state and for any host operation. For legal
commands this is the spec's own ("there is no stuck state", no refusal needed, no hang). For IllegalCommand it is the
model's choice: R152 classes it as the Fault outcome, with `STATUS.ERR` as the fault bit, and the model takes it as a
next state of a machine whose types of stops nothing raises (log entry 7, DEDUCED from R141: the block "does not halt,
lock up or need a reset to continue"). -/
def Obligations.EveryStepAnswersANextState : Prop :=
  (∀ s, ∃ t, step s = .next t) ∧ (∀ i s, ∃ t, exec i s = .next t) ∧
  ∀ (k : Nat) (s : State), ∃ t, Host.Core.run core k s = .next t

/-- The invariant holds at reset: `ERRCMD` is 0 while `ERR` is 0 (the spec's reset values), and the list that holds the
buffer is in canonical form, which is the model's choice (log entry 2, DESIGN CHOICE): the spec gives the buffer no
representation. -/
def Obligations.InvariantHoldsAtReset : Prop := StateInv State.reset

/-- Every step from any state that meets the invariant gives a state that meets it: `ERRCMD` stays 0 while `ERR` is 0
(the spec's), and the list that holds the buffer stays in canonical form, its addresses strictly rising and below 512,
which is the model's choice (log entry 2, DESIGN CHOICE): the spec gives the buffer no representation. -/
def Obligations.EveryStepKeepsTheInvariant : Prop := ∀ s t, StateInv s → step s = .next t → StateInv t

/-- "A run whose final `STATUS.ERR` is 1 contained an illegal command" (R166): from any state with `ERR = 0`, however
many steps the run takes. Conversely a run in which no pending operation is an illegal word ends with `ERR = 0`. -/
def Obligations.FaultedRunPresentedAnIllegalWord : Prop :=
  ∀ (k : Nat) (s t : State), s.err = false → Host.Core.run core k s = .next t → t.err = true →
    ∃ w, .cmd w ∈ s.pending.take k ∧ IllegalWord w

/-- The status part of R160: `HostReset` clears `ERR` and `ERRCMD`, leaves the block able to accept any host operation,
and is the only way to clear `ERR`; the power-on state has the same status. (What limbs and bytes hold is unspecified:
the next statement.) -/
def Obligations.HostResetClearsStatus : Prop :=
  (State.reset.err = false ∧ State.reset.statusWord = 0 ∧ State.reset.errcmd = 0 ∧ State.reset.pending = []) ∧
  (∀ s x rest, s.pending = .reset x :: rest →
    ∃ t, step s = .next t ∧ t.err = false ∧ t.statusWord = 0 ∧ t.errcmd = 0 ∧ t.pending = rest ∧
      ∃ u, step t = .next u) ∧
  ∀ s t, s.err = true → step s = .next t → t.err = false → ∃ x rest, s.pending = .reset x :: rest

/-- R161: a reset that arrives while a command is executing gives no response for it and leaves the same state as a
reset alone; every register and byte then holds the free value of the new reset (log entries 1 and 3: the contents
are the model's choice, any value at all). -/
def Obligations.ResetAbandonsTheRunningCommand : Prop :=
  ∀ s w rest, s.pending = .reset (some w) :: rest →
    step s = step { s with pending := .reset none :: rest } ∧
    ∃ t, step s = .next t ∧ t.reply = .nothing ∧ (∀ r i, limb (t.reg r) i = Config.freeLimb t.resets r i) ∧
      (∀ a, t.byte a = Config.freeByte t.resets a) ∧ t.resets = s.resets + 1

/-! ## Host accesses and memory (`20_memory.md`) -/

/-- The rows of R48 for single bytes, limbs and status registers: what each operation writes and returns. -/
def Obligations.HostAccessesReadAndWriteOneDatum : Prop :=
  (∀ s a b rest, s.pending = .writeByte a b :: rest →
    ∃ t, step s = .next t ∧ t.byte a = b ∧ (∀ x, x ≠ a → t.byte x = s.byte x) ∧ (∀ r, t.reg r = s.reg r) ∧
      t.err = s.err ∧ t.errcmd = s.errcmd ∧ t.reply = .nothing ∧ t.pending = rest) ∧
  (∀ s r i v rest, s.pending = .writeLimb r i v :: rest →
    ∃ t, step s = .next t ∧ limb (t.reg r) i = v ∧ (∀ j, j ≠ i → limb (t.reg r) j = limb (s.reg r) j) ∧
      (∀ r', r' ≠ r → t.reg r' = s.reg r') ∧ (∀ a, t.byte a = s.byte a) ∧ t.err = s.err ∧ t.errcmd = s.errcmd ∧
      t.reply = .nothing ∧ t.pending = rest) ∧
  (∀ s a rest, s.pending = .readByte a :: rest → ∃ t, step s = .next t ∧ t.reply = .byte (s.byte a) ∧ SameBlock s t) ∧
  (∀ s r i rest, s.pending = .readLimb r i :: rest →
    ∃ t, step s = .next t ∧ t.reply = .limb (limb (s.reg r) i) ∧ SameBlock s t) ∧
  ∀ s n rest, s.pending = .readStatus n :: rest →
    ∃ t, step s = .next t ∧ t.reply = .status (if n = 0 then s.statusWord else s.errcmd) ∧ SameBlock s t

/-- R45: reading a byte, a limb or a status register changes nothing, and reading it twice in a row gives the same
value; writing a byte or a limb changes that byte or limb only. -/
def Obligations.ReadsHaveNoSideEffect : Prop :=
  (∀ s o rest, ((∃ a, o = .readByte a) ∨ (∃ r i, o = .readLimb r i) ∨ ∃ n, o = .readStatus n) →
    s.pending = o :: o :: rest →
    ∃ t u, step s = .next t ∧ SameBlock s t ∧ step t = .next u ∧ SameBlock s u ∧ u.reply = t.reply) ∧
  (∀ s a b t, hostOp (.writeByte a b) s = .next t → t.byte a = b ∧ (∀ r, t.reg r = s.reg r) ∧
    (∀ x, x ≠ a → t.byte x = s.byte x) ∧ t.err = s.err ∧ t.errcmd = s.errcmd) ∧
  ∀ s r i v t, hostOp (.writeLimb r i v) s = .next t → limb (t.reg r) i = v ∧ (∀ a, t.byte a = s.byte a) ∧
    (∀ r' j, (r', j) ≠ (r, i) → limb (t.reg r') j = limb (s.reg r') j) ∧ t.err = s.err ∧ t.errcmd = s.errcmd

/-- Over a whole run, a register or a byte keeps its value as long as no operation of the run may write it (R25, R26
"stable", R47): whatever else the run does. -/
def Obligations.ValuesAreStableUntilWritten : Prop :=
  ∀ (k : Nat) (s t : State), Host.Core.run core k s = .next t →
    (∀ r, (∀ o ∈ s.pending.take k, writesReg r o = false) → t.reg r = s.reg r) ∧
    ∀ a, (∀ o ∈ s.pending.take k, writesByte a o = false) → t.byte a = s.byte a

/-- R43: slot `s` is the 32 bytes `BUF[32·s] .. BUF[32·s+31]`, its address a multiple of 32 and in range, and slots
do not overlap; the bytes of a slot are read in this order, and TOB leaves the bytes of every other slot alone. -/
def Obligations.SlotsTileTheBuffer : Prop :=
  (∀ (k : Slot) (j : Fin 32), (slotAddr k j).val = 32 * k.val + j.val ∧ 32 * k.val + 31 ≤ 511) ∧
  (∀ (k k' : Slot) (j j' : Fin 32), slotAddr k j = slotAddr k' j' → k = k' ∧ j = j') ∧
  (∀ (s : State) (k : Slot), s.slotBytes k = List.ofFn fun j : Fin 32 => s.byte (slotAddr k j)) ∧
  ∀ s t slot rs1 (k : Slot) (j : Fin 32), exec (.tob slot rs1) s = .next t → k ≠ slot →
    t.byte (slotAddr k j) = s.byte (slotAddr k j)

/-- R89: a command writes its one destination and nothing else: no other register, no other byte, not `STATUS`, not
`ERRCMD`; and what it writes there depends on nothing but its source registers and its source slot: two states that
agree on them get the same destination. -/
def Obligations.CommandsTouchOnlyTheirArguments : Prop :=
  (∀ i s t, exec i s = .next t →
    (∀ rd, destReg i = some rd → OnlyRegChanged rd s t) ∧ (∀ k, destSlot i = some k → OnlySlotChanged k s t) ∧
    (destReg i = none ↔ destSlot i ≠ none)) ∧
  ∀ i s₁ s₂ t₁ t₂, (∀ r ∈ sourceRegs i, s₁.reg r = s₂.reg r) →
    (∀ k, sourceSlot i = some k → ∀ j, s₁.byte (slotAddr k j) = s₂.byte (slotAddr k j)) →
    exec i s₁ = .next t₁ → exec i s₂ = .next t₂ →
    (∀ rd, destReg i = some rd → t₁.reg rd = t₂.reg rd) ∧
    ∀ k, destSlot i = some k → ∀ j, t₁.byte (slotAddr k j) = t₂.byte (slotAddr k j)

/-- R88: a destination may be the same register as a source, in any command, and the result is the one computed from
the sources' old values: the limbs written do not depend on which register is the destination. CMOV, whose destination
is a source by definition, is stated by itself. -/
def Obligations.AliasedDestinationsGetTheSameResult : Prop :=
  (∀ d d' a b s t t', exec (.add d a b) s = .next t → exec (.add d' a b) s = .next t' → t.reg d = t'.reg d') ∧
  (∀ d d' a b s t t', exec (.sub d a b) s = .next t → exec (.sub d' a b) s = .next t' → t.reg d = t'.reg d') ∧
  (∀ d d' a s t t', exec (.neg d a) s = .next t → exec (.neg d' a) s = .next t' → t.reg d = t'.reg d') ∧
  (∀ d d' a b s t t', exec (.mul d a b) s = .next t → exec (.mul d' a b) s = .next t' → t.reg d = t'.reg d') ∧
  (∀ d d' a s t t', exec (.sqr d a) s = .next t → exec (.sqr d' a) s = .next t' → t.reg d = t'.reg d') ∧
  (∀ d d' a s t t', exec (.sqr2 d a) s = .next t → exec (.sqr2 d' a) s = .next t' → t.reg d = t'.reg d') ∧
  (∀ d f s, exec (.cmov d d f) s = .next s) ∧
  (∀ d s t, Bnd (s.reg d) 54 → exec (.mul d d d) s = .next t → residue t d = residue s d ^ 2 % p) ∧
  (∀ d s t, Bnd (s.reg d) 54 → exec (.sub d d d) s = .next t → residue t d = 0) ∧
  ∀ d s t, (∀ k, (limb (s.reg d) k).toNat < 2 ^ 63) → exec (.add d d d) s = .next t →
    ∀ k, (limb (t.reg d) k).toNat = 2 * (limb (s.reg d) k).toNat

/-! ## The datapath (`40_datapath_primitives.md`) -/

/-- R83: one pass, rippling from limb 0 to limb 4, each step using the already-updated lower limb, the top carry times
19 into limb 0; every sum and product modulo 2^64. -/
def Obligations.CarryPassRipplesOnce : Prop :=
  ∀ x : FieldElement,
    let u1 := (x.v1.toNat + x.v0.toNat / 2 ^ 51) % 2 ^ 64
    let u2 := (x.v2.toNat + u1 / 2 ^ 51) % 2 ^ 64
    let u3 := (x.v3.toNat + u2 / 2 ^ 51) % 2 ^ 64
    let u4 := (x.v4.toNat + u3 / 2 ^ 51) % 2 ^ 64
    (carryPass x).v0.toNat = (x.v0.toNat % 2 ^ 51 + 19 * (u4 / 2 ^ 51) % 2 ^ 64) % 2 ^ 64 ∧
    (carryPass x).v1.toNat = u1 % 2 ^ 51 ∧ (carryPass x).v2.toNat = u2 % 2 ^ 51 ∧
    (carryPass x).v3.toNat = u3 % 2 ^ 51 ∧ (carryPass x).v4.toNat = u4 % 2 ^ 51

/-- The inference the spec marks as its own in R84: when limbs 1 to 4 are at most `2^64 − 2^13`, the carry pass
subtracts `q·p`, `q` the top carry, so it keeps the residue; its result is `Tight`; it leaves limbs below `2^51`
unchanged; and for limbs below `2^54` the top carry is at most 8. -/
def Obligations.CarryPassKeepsTheResidue : Prop :=
  ∀ x, (CarryOk x → value (carryPass x) + topCarry x * p = value x ∧ value (carryPass x) % p = value x % p ∧
      topCarry x ≤ 2 ^ 13 - 1 ∧ Tight (carryPass x) ∧
      (carryPass x).v0.toNat < 2 ^ 51 + 19 * (2 ^ 13 - 1) ∧ value (carryPass x) < 2 ^ 255 + 2 ^ 18) ∧
    (Bnd x 51 → carryPass x = x) ∧ (Bnd x 54 → topCarry x ≤ 8 ∧ (carryPass x).v0.toNat < 2 ^ 51 + 153)

/-- R85 and R86: the carry out of an accumulator is `u64((hi << 13) OR (lo >> 51))`, which is `u64(acc >> 51)`; all
five carries are taken from the accumulators as they stand; the top one times 19 goes into limb 0; the second stage
is the carry pass. -/
def Obligations.Fold128TakesCarriesInParallel : Prop :=
  (∀ a : Acc, accCarry a = (a.extractLsb' 64 64 <<< 13) ||| (a.extractLsb' 0 64 >>> 51)) ∧
  ∀ A : Accs,
    let c := fun k => (acc A k).toNat / 2 ^ 51 % 2 ^ 64
    let l := fun k => (acc A k).toNat % 2 ^ 51
    (fold128 A).v0.toNat = (l 0 + 19 * c 4 % 2 ^ 64) % 2 ^ 64 ∧ (fold128 A).v1.toNat = (l 1 + c 0) % 2 ^ 64 ∧
    (fold128 A).v2.toNat = (l 2 + c 1) % 2 ^ 64 ∧ (fold128 A).v3.toNat = (l 3 + c 2) % 2 ^ 64 ∧
    (fold128 A).v4.toNat = (l 4 + c 3) % 2 ^ 64 ∧ reduce128 A = carryPass (fold128 A)

/-- The inference the spec marks as its own in R87: under its three conditions nothing in `Reduce128` wraps, the fold
subtracts `c[4]·p` from `S = Σ acc[k]·2^(51·k)`, and the result is `Tight` and congruent to `S`. -/
def Obligations.Reduce128KeepsTheResidue : Prop :=
  ∀ A : Accs,
    let c := fun k => (acc A k).toNat / 2 ^ 51
    let l := fun k => (acc A k).toNat % 2 ^ 51
    let S := (acc A 0).toNat + (acc A 1).toNat * 2 ^ 51 + (acc A 2).toNat * 2 ^ 102 + (acc A 3).toNat * 2 ^ 153 +
      (acc A 4).toNat * 2 ^ 204
    (∀ k, (acc A k).toNat < 2 ^ 115) → l 0 + 19 * c 4 < 2 ^ 64 → (∀ k, k ≠ 0 → l k + c (k - 1) ≤ 2 ^ 64 - 2 ^ 13) →
    value (fold128 A) + c 4 * p = S ∧ value (reduce128 A) % p = S % p ∧ Tight (reduce128 A)

/-! ## ADD, SUB, NEG (`41_add_sub_neg.md`) -/

/-- R90: ADD writes the limb-wise sums modulo 2^64, with no carry between limbs, and nothing else; when no limb sum
reaches 2^64 the sums are exact, the value is the sum of the values, hence congruent, and limbs grow by at most one
bit; the encoding. -/
def Obligations.AddSumsLimbwise : Prop :=
  ∀ rd rs1 rs2 s, ∃ t, exec (.add rd rs1 rs2) s = .next t ∧ OnlyRegChanged rd s t ∧
    (encode (.add rd rs1 rs2)).toNat = 0x01 * 2 ^ 24 + rd.val * 2 ^ 20 + rs1.val * 2 ^ 16 + rs2.val * 2 ^ 12 ∧
    (∀ k, (limb (t.reg rd) k).toNat = ((limb (s.reg rs1) k).toNat + (limb (s.reg rs2) k).toNat) % 2 ^ 64) ∧
    ((∀ k, (limb (s.reg rs1) k).toNat + (limb (s.reg rs2) k).toNat < 2 ^ 64) →
      (∀ k, (limb (t.reg rd) k).toNat = (limb (s.reg rs1) k).toNat + (limb (s.reg rs2) k).toNat) ∧
      value (t.reg rd) = value (s.reg rs1) + value (s.reg rs2) ∧
      residue t rd = (residue s rs1 + residue s rs2) % p ∧
      ∀ m n, Bnd (s.reg rs1) m → Bnd (s.reg rs2) n → Bnd (t.reg rd) (max m n + 1))

/-- R91: the constants `K_i` are `2^52 − 38` and `2^52 − 2`, twice the limbs of `p`, so their value is `2p`; and
`a[i] + K_i ≥ t[i]` for every carried subtrahend `t`, whatever `a[i]`. -/
def Obligations.SubtractionConstantsAreTwoP : Prop :=
  (kConst 0).toNat = 2 ^ 52 - 38 ∧ (∀ k, k ≠ 0 → (kConst k).toNat = 2 ^ 52 - 2) ∧
  (kConst 0).toNat = 2 * (2 ^ 51 - 19) ∧ (∀ k, k ≠ 0 → (kConst k).toNat = 2 * (2 ^ 51 - 1)) ∧
  value (ofLimbs kConst) = 2 * p ∧
  (∀ b, CarryOk b → ∀ k (a : Word), (limb (carryPass b) k).toNat ≤ a.toNat + (kConst k).toNat)

/-- R92, with the output bounds the spec marks as its own inference: SUB writes `u64(u64(a[i] + K_i) − t[i])` with
`t = CarryPass(b)`; within the precondition nothing wraps, the value is `value(a) − value(b) + (2 + q)·p`, `q` the top
carry of the pass on `b`, hence congruent to `a − b`; limbs stay within `a[i] + K_i`; the encoding. -/
def Obligations.SubSubtractsModP : Prop :=
  ∀ rd rs1 rs2 s, ∃ t, exec (.sub rd rs1 rs2) s = .next t ∧ OnlyRegChanged rd s t ∧
    (encode (.sub rd rs1 rs2)).toNat = 0x02 * 2 ^ 24 + rd.val * 2 ^ 20 + rs1.val * 2 ^ 16 + rs2.val * 2 ^ 12 ∧
    (∀ k, (limb (t.reg rd) k).toNat =
      (((limb (s.reg rs1) k).toNat + (kConst k).toNat) % 2 ^ 64 + (2 ^ 64 - (limb (carryPass (s.reg rs2)) k).toNat))
        % 2 ^ 64) ∧
    (CarryOk (s.reg rs2) → (∀ k, (limb (s.reg rs1) k).toNat < 2 ^ 64 - 2 ^ 52) →
      (∀ k, (limb (t.reg rd) k).toNat + (limb (carryPass (s.reg rs2)) k).toNat =
        (limb (s.reg rs1) k).toNat + (kConst k).toNat) ∧
      value (t.reg rd) + value (s.reg rs2) = value (s.reg rs1) + (2 + topCarry (s.reg rs2)) * p ∧
      (residue t rd + residue s rs2) % p = residue s rs1 ∧
      (∀ k, (limb (t.reg rd) k).toNat < (limb (s.reg rs1) k).toNat + 2 ^ 52) ∧
      (Bnd (s.reg rs1) 54 → Bnd (t.reg rd) 55) ∧ (Tight (s.reg rs1) → Bnd (t.reg rd) 53))

/-- R93: NEG writes `u64(K_i − t[i])` with `t = CarryPass(a)`, which is SUB from the zero vector; within the
precondition the value is `(2 + q)·p − value(a)`, hence congruent to `−a`, and every limb is at most `K_i < 2^52`;
NEG of zeros is `K`, NEG of the limbs of `p` is that vector again; the encoding. -/
def Obligations.NegNegatesModP : Prop :=
  ∀ rd rs1 s, ∃ t, exec (.neg rd rs1) s = .next t ∧ OnlyRegChanged rd s t ∧
    (encode (.neg rd rs1)).toNat = 0x03 * 2 ^ 24 + rd.val * 2 ^ 20 + rs1.val * 2 ^ 16 ∧
    (∀ k, (limb (t.reg rd) k).toNat =
      ((kConst k).toNat + (2 ^ 64 - (limb (carryPass (s.reg rs1)) k).toNat)) % 2 ^ 64) ∧
    t.reg rd = subLimbs ⟨0, 0, 0, 0, 0⟩ (s.reg rs1) ∧
    (CarryOk (s.reg rs1) →
      (∀ k, (limb (t.reg rd) k).toNat + (limb (carryPass (s.reg rs1)) k).toNat = (kConst k).toNat) ∧
      value (t.reg rd) + value (s.reg rs1) = (2 + topCarry (s.reg rs1)) * p ∧
      (residue t rd + residue s rs1) % p = 0 ∧ Bnd (t.reg rd) 52) ∧
    (s.reg rs1 = ⟨0, 0, 0, 0, 0⟩ → t.reg rd = ofLimbs kConst) ∧
    (s.reg rs1 = ⟨0x7FFFFFFFFFFED, 0x7FFFFFFFFFFFF, 0x7FFFFFFFFFFFF, 0x7FFFFFFFFFFFF, 0x7FFFFFFFFFFFF⟩ →
      t.reg rd = s.reg rs1)

/-- R94: for operands within the preconditions, modulo `p`: ADD is commutative (even limb by limb), a value plus its
negation is 0, and MUL distributes over ADD. `d` and `e` are scratch registers, not operands. -/
def Obligations.AdditiveLaws : Prop :=
  (∀ d a b s t t', exec (.add d a b) s = .next t → exec (.add d b a) s = .next t' → t.reg d = t'.reg d) ∧
  (∀ d a s t u, d ≠ a → CarryOk (s.reg a) → (∀ k, (limb (s.reg a) k).toNat < 2 ^ 64 - 2 ^ 52) →
    exec (.neg d a) s = .next t → exec (.add d a d) t = .next u → residue u d = 0) ∧
  ∀ d e a b c s t u t₁ t₂ t₃, d ≠ a → d ≠ b → d ≠ c → e ≠ a → e ≠ b → e ≠ c → d ≠ e →
    Bnd (s.reg a) 54 → Bnd (s.reg b) 54 → Bnd (s.reg c) 54 →
    (∀ k, (limb (s.reg b) k).toNat + (limb (s.reg c) k).toNat < 2 ^ 54) →
    exec (.add d b c) s = .next t → exec (.mul d a d) t = .next u →
    exec (.mul d a b) s = .next t₁ → exec (.mul e a c) t₁ = .next t₂ → exec (.add d d e) t₂ = .next t₃ →
    residue u d = residue t₃ d

/-! ## MUL, SQR, SQR2 (`42_mul_sqr.md`) -/

namespace Sys2Proof.Machine

/-- Coefficient `k` of R100 as a number: the sum of `a[i]·b[j]` over `i + j ≡ k (mod 5)`, the first operand of a term
with `i + j ≥ 5` pre-multiplied by 19 modulo 2^64, all modulo 2^128. (`k - i` is in Fin 5, modulo 5.) -/
def mulCoefficient (a b : FieldElement) (k : Fin 5) : Nat :=
  (∑ i : Fin 5, (if i ≤ k then (limb a i).toNat else 19 * (limb a i).toNat % 2 ^ 64) * (limb b (k - i)).toNat) % 2 ^ 128

/-- Coefficient `k` of R103 as a number. -/
def sqrCoefficient (a : FieldElement) (k : Fin 5) : Nat :=
  let x := fun i => (limb a i).toNat
  (match k with
    | 0 => x 0 * x 0 + 38 * x 1 % 2 ^ 64 * x 4 + 38 * x 2 % 2 ^ 64 * x 3
    | 1 => 2 * x 0 % 2 ^ 64 * x 1 + 38 * x 2 % 2 ^ 64 * x 4 + 19 * x 3 % 2 ^ 64 * x 3
    | 2 => 2 * x 0 % 2 ^ 64 * x 2 + x 1 * x 1 + 38 * x 3 % 2 ^ 64 * x 4
    | 3 => 2 * x 0 % 2 ^ 64 * x 3 + 2 * x 1 % 2 ^ 64 * x 2 + 19 * x 4 % 2 ^ 64 * x 4
    | 4 => 2 * x 0 % 2 ^ 64 * x 4 + 2 * x 1 % 2 ^ 64 * x 3 + x 2 * x 2) % 2 ^ 128

end Sys2Proof.Machine

/-- R100: MUL writes `Reduce128` of the five accumulators that hold the 25 products, and nothing else; the
encoding. -/
def Obligations.MulAccumulatesTwentyFiveProducts : Prop :=
  ∀ rd rs1 rs2 s, ∃ t, exec (.mul rd rs1 rs2) s = .next t ∧ OnlyRegChanged rd s t ∧
    (encode (.mul rd rs1 rs2)).toNat = 0x04 * 2 ^ 24 + rd.val * 2 ^ 20 + rs1.val * 2 ^ 16 + rs2.val * 2 ^ 12 ∧
    ∃ A, (∀ k, (acc A k).toNat = mulCoefficient (s.reg rs1) (s.reg rs2) k) ∧ t.reg rd = reduce128 A

/-- The inference the spec marks as its own in R101: MUL multiplies modulo `p` and its result is `Tight`, for operands
below `2^m` and `2^n` with `m + n ≤ 108` and `m ≤ 59`, in particular for 54 and 54; zeros give zeros, one gives back a
`LimbReduced` operand limb for limb; and the bound 54 is sharp: limbs of `2^55 − 1` give a wrong residue. -/
def Obligations.MulMultipliesModP : Prop :=
  ∀ rd rs1 rs2 s, ∃ t, exec (.mul rd rs1 rs2) s = .next t ∧
    (∀ m n, m + n ≤ 108 → m ≤ 59 → Bnd (s.reg rs1) m → Bnd (s.reg rs2) n →
      residue t rd = residue s rs1 * residue s rs2 % p ∧ Tight (t.reg rd)) ∧
    (s.reg rs1 = ⟨0, 0, 0, 0, 0⟩ ∨ s.reg rs2 = ⟨0, 0, 0, 0, 0⟩ → t.reg rd = ⟨0, 0, 0, 0, 0⟩) ∧
    (s.reg rs1 = ⟨1, 0, 0, 0, 0⟩ → LimbReduced (s.reg rs2) → t.reg rd = s.reg rs2) ∧
    (s.reg rs2 = ⟨1, 0, 0, 0, 0⟩ → LimbReduced (s.reg rs1) → t.reg rd = s.reg rs1) ∧
    (s.reg rs1 = ofLimbs (fun _ => 0x7FFFFFFFFFFFFF) → s.reg rs2 = ofLimbs (fun _ => 0x7FFFFFFFFFFFFF) →
      residue t rd ≠ residue s rs1 * residue s rs2 % p)

/-- R102: for operands within the precondition, modulo `p`, MUL is associative, distributes over ADD, and has one,
`[1, 0, 0, 0, 0]`, as its identity. `d` and `e` are scratch registers, not operands. -/
def Obligations.MultiplicativeLaws : Prop :=
  (∀ d a b c s t u t' u', d ≠ a → d ≠ b → d ≠ c → Bnd (s.reg a) 54 → Bnd (s.reg b) 54 → Bnd (s.reg c) 54 →
    exec (.mul d b c) s = .next t → exec (.mul d a d) t = .next u →
    exec (.mul d a b) s = .next t' → exec (.mul d d c) t' = .next u' → residue u d = residue u' d) ∧
  (∀ d e a b c s t u t₁ t₂ t₃, d ≠ a → d ≠ b → d ≠ c → e ≠ a → e ≠ b → e ≠ c → d ≠ e →
    Bnd (s.reg a) 54 → Bnd (s.reg b) 54 → Bnd (s.reg c) 54 →
    (∀ k, (limb (s.reg b) k).toNat + (limb (s.reg c) k).toNat < 2 ^ 54) →
    exec (.mul d a b) s = .next t₁ → exec (.mul e a c) t₁ = .next t₂ → exec (.add d d e) t₂ = .next t₃ →
    exec (.add d b c) s = .next t → exec (.mul d a d) t = .next u → residue u d = residue t₃ d) ∧
  ∀ d a one s t, Bnd (s.reg a) 54 → s.reg one = ⟨1, 0, 0, 0, 0⟩ → exec (.mul d a one) s = .next t →
    residue t d = residue s a

/-- R103: SQR writes `Reduce128` of the five accumulators of three products each, with the rule's scaled copies, and
nothing else; the encoding. -/
def Obligations.SqrAccumulatesFifteenProducts : Prop :=
  ∀ rd rs1 s, ∃ t, exec (.sqr rd rs1) s = .next t ∧ OnlyRegChanged rd s t ∧
    (encode (.sqr rd rs1)).toNat = 0x05 * 2 ^ 24 + rd.val * 2 ^ 20 + rs1.val * 2 ^ 16 ∧
    ∃ A, (∀ k, (acc A k).toNat = sqrCoefficient (s.reg rs1) k) ∧ t.reg rd = reduce128 A

/-- The inference the spec marks as its own in R104: for limbs below `2^54`, SQR writes exactly the limbs that
`MUL fd, fa, fa` writes, congruent to `a²` and `Tight`; outside the precondition the two can differ. -/
def Obligations.SqrAgreesWithMul : Prop :=
  ∀ rd rs1 s, ∃ t u, exec (.sqr rd rs1) s = .next t ∧ exec (.mul rd rs1 rs1) s = .next u ∧
    (Bnd (s.reg rs1) 54 → t = u ∧ residue t rd = residue s rs1 ^ 2 % p ∧ Tight (t.reg rd)) ∧
    (s.reg rs1 = ⟨0, 0x800000000000000, 0, 0, 1⟩ → t.reg rd ≠ u.reg rd)

/-- R105: SQR2 writes the limbs SQR would write, doubled limb by limb modulo 2^64: the result of SQR followed by
`ADD fd, fd, fd`, limb by limb; for limbs below `2^54` the doubling is exact, the result congruent to `2·a²` and its
limbs below `2^52 + 2^19` and `2^52`; nothing else is written; the encoding. -/
def Obligations.Sqr2DoublesTheSquare : Prop :=
  ∀ rd rs1 s, ∃ t u v, exec (.sqr2 rd rs1) s = .next t ∧ exec (.sqr rd rs1) s = .next u ∧
    exec (.add rd rd rd) u = .next v ∧ OnlyRegChanged rd s t ∧
    (encode (.sqr2 rd rs1)).toNat = 0x06 * 2 ^ 24 + rd.val * 2 ^ 20 + rs1.val * 2 ^ 16 ∧
    (∀ k, (limb (t.reg rd) k).toNat = ((limb (u.reg rd) k).toNat + (limb (u.reg rd) k).toNat) % 2 ^ 64) ∧
    t.reg rd = v.reg rd ∧
    (Bnd (s.reg rs1) 54 →
      (∀ k, (limb (t.reg rd) k).toNat = 2 * (limb (u.reg rd) k).toNat) ∧ residue t rd = 2 * residue s rs1 ^ 2 % p ∧
      (t.reg rd).v0.toNat < 2 ^ 52 + 2 ^ 19 ∧ (∀ k, k ≠ 0 → (limb (t.reg rd) k).toNat < 2 ^ 52) ∧ Bnd (t.reg rd) 53)

/-! ## CMOV and pseudo-instructions (`43_cmov.md`, `30_encoding.md`) -/

/-- R115: CMOV writes `f XOR (mask AND (f XOR g))` per limb, the mask all ones or all zeros as `flag` is 1 or 0: with
`flag = 1` the destination becomes equal to `f[rs1]`, all 64 bits of all limbs, with `flag = 0` it is unchanged;
nothing else changes, and nothing at all when `rs1 = rd`; the encoding. -/
def Obligations.CmovSelectsByFlag : Prop :=
  ∀ rd rs1 flag s, ∃ t, exec (.cmov rd rs1 flag) s = .next t ∧ OnlyRegChanged rd s t ∧
    (encode (.cmov rd rs1 flag)).toNat = 0x07 * 2 ^ 24 + rd.val * 2 ^ 20 + rs1.val * 2 ^ 16 + flag.toNat ∧
    (∀ k, limb (t.reg rd) k = limb (s.reg rd) k ^^^
      ((if flag.toNat = 1 then 0xFFFFFFFFFFFFFFFF else 0) &&& (limb (s.reg rd) k ^^^ limb (s.reg rs1) k))) ∧
    (flag.toNat = 1 → t.reg rd = s.reg rs1) ∧ (flag.toNat = 0 → t = s) ∧ (rs1 = rd → t = s) ∧
    (rs1 ≠ rd → t.reg rs1 = s.reg rs1)

/-- R70: `MOV fd, fa` is `CMOV fd, fa, 1` and copies all five limbs; `NOP` is `CMOV f0, f0, 0`, the word `0x07000000`,
and changes no state; `DBL fd, fa` is `ADD fd, fa, fa` and doubles every limb. -/
def Obligations.PseudoInstructionsExpandToOneCommand : Prop :=
  (∀ d a s, ∃ t, exec (.cmov d a 1) s = .next t ∧ t.reg d = s.reg a ∧ OnlyRegChanged d s t) ∧
  (encode (.cmov 0 0 0) = 0x07000000 ∧ ∀ s, exec (.cmov 0 0 0) s = .next s) ∧
  ∀ d a s, ∃ t, exec (.add d a a) s = .next t ∧ OnlyRegChanged d s t ∧
    ∀ k, (limb (t.reg d) k).toNat = 2 * (limb (s.reg a) k).toNat % 2 ^ 64

/-! ## FROMB, TOB (`44_codec.md`) -/

/-- R120: FROMB writes limb `i` as bits `51i+50 .. 51i` of the little-endian number in the slot, whatever the 32 bytes
hold, and nothing else; the result has limbs below `2^51` and value `n mod 2^255`; the encoding. -/
def Obligations.FrombDecodesTheSlot : Prop :=
  ∀ rd k s, ∃ t, exec (.fromb rd k) s = .next t ∧ OnlyRegChanged rd s t ∧
    (encode (.fromb rd k)).toNat = 0x08 * 2 ^ 24 + rd.val * 2 ^ 20 + k.val * 2 ^ 8 ∧
    (∀ i, (limb (t.reg rd) i).toNat =
      (∑ j : Fin 32, (s.byte (slotAddr k j)).toNat * 2 ^ (8 * j.val)) / 2 ^ (51 * i.val) % 2 ^ 51) ∧
    Bnd (t.reg rd) 51 ∧
    value (t.reg rd) = (∑ j : Fin 32, (s.byte (slotAddr k j)).toNat * 2 ^ (8 * j.val)) % 2 ^ 255

/-- R121: FROMB validates nothing. Its result is `LimbReduced`, and `Canonical` exactly when `n mod 2^255 < p`; the
values `p .. 2^255 − 1` decode to limb vectors whose value is `≥ p`, the encoding of `p` to the limbs of `p`; two
slots that differ only in bit 7 of byte 31 decode to the same register value; `STATUS.ERR` is not set. -/
def Obligations.FrombNeverValidates : Prop :=
  (∀ rd k s, ∃ t, exec (.fromb rd k) s = .next t ∧ LimbReduced (t.reg rd) ∧ value (t.reg rd) < 2 ^ 255 ∧
    (Canonical (t.reg rd) ↔ le256 (s.slotBytes k) % 2 ^ 255 < p) ∧
    (p ≤ le256 (s.slotBytes k) % 2 ^ 255 → p ≤ value (t.reg rd)) ∧
    (le256 (s.slotBytes k) = p →
      t.reg rd = ⟨0x7FFFFFFFFFFED, 0x7FFFFFFFFFFFF, 0x7FFFFFFFFFFFF, 0x7FFFFFFFFFFFF, 0x7FFFFFFFFFFFF⟩) ∧
    t.err = s.err) ∧
  ∀ rd k k' s t t', (∀ j : Fin 32, j ≠ 31 → s.byte (slotAddr k j) = s.byte (slotAddr k' j)) →
    (s.byte (slotAddr k 31)).toNat % 2 ^ 7 = (s.byte (slotAddr k' 31)).toNat % 2 ^ 7 →
    exec (.fromb rd k) s = .next t → exec (.fromb rd k') s = .next t' → t.reg rd = t'.reg rd

/-- The table the spec derives in R122: which bits of which bytes make each limb. -/
def Obligations.FrombBitWindows : Prop :=
  ∀ rd k s, ∃ t, exec (.fromb rd k) s = .next t ∧
    let b := fun j : Fin 32 => (s.byte (slotAddr k j)).toNat
    (t.reg rd).v0.toNat = b 0 + b 1 * 2 ^ 8 + b 2 * 2 ^ 16 + b 3 * 2 ^ 24 + b 4 * 2 ^ 32 + b 5 * 2 ^ 40 +
      b 6 % 2 ^ 3 * 2 ^ 48 ∧
    (t.reg rd).v1.toNat = b 6 / 2 ^ 3 + b 7 * 2 ^ 5 + b 8 * 2 ^ 13 + b 9 * 2 ^ 21 + b 10 * 2 ^ 29 + b 11 * 2 ^ 37 +
      b 12 % 2 ^ 6 * 2 ^ 45 ∧
    (t.reg rd).v2.toNat = b 12 / 2 ^ 6 + b 13 * 2 ^ 2 + b 14 * 2 ^ 10 + b 15 * 2 ^ 18 + b 16 * 2 ^ 26 +
      b 17 * 2 ^ 34 + b 18 * 2 ^ 42 + b 19 % 2 * 2 ^ 50 ∧
    (t.reg rd).v3.toNat = b 19 / 2 + b 20 * 2 ^ 7 + b 21 * 2 ^ 15 + b 22 * 2 ^ 23 + b 23 * 2 ^ 31 + b 24 * 2 ^ 39 +
      b 25 % 2 ^ 4 * 2 ^ 47 ∧
    (t.reg rd).v4.toNat = b 25 / 2 ^ 4 + b 26 * 2 ^ 4 + b 27 * 2 ^ 12 + b 28 * 2 ^ 20 + b 29 * 2 ^ 28 +
      b 30 * 2 ^ 36 + b 31 % 2 ^ 7 * 2 ^ 44

/-- R123: TOB runs steps A to E (carry pass; trial addition of 19 of which only the carries are kept; `19·q` into limb
0; a final pass whose carry out of limb 4 is discarded; the 32 bytes), every sum and product modulo 2^64, and changes
nothing but the slot; the source register is not changed; the encoding. -/
def Obligations.TobFollowsItsSteps : Prop :=
  ∀ k rs1 s, ∃ t, exec (.tob k rs1) s = .next t ∧ OnlySlotChanged k s t ∧ t.reg rs1 = s.reg rs1 ∧
    (encode (.tob k rs1)).toNat = 0x09 * 2 ^ 24 + rs1.val * 2 ^ 16 + k.val * 2 ^ 8 ∧
    let x := fun i => (limb (carryPass (s.reg rs1)) i).toNat
    let c0 := (x 0 + 19) % 2 ^ 64 / 2 ^ 51
    let c1 := (x 1 + c0) % 2 ^ 64 / 2 ^ 51
    let c2 := (x 2 + c1) % 2 ^ 64 / 2 ^ 51
    let c3 := (x 3 + c2) % 2 ^ 64 / 2 ^ 51
    let q := (x 4 + c3) % 2 ^ 64 / 2 ^ 51
    let u0 := (x 0 + 19 * q % 2 ^ 64) % 2 ^ 64
    let u1 := (x 1 + u0 / 2 ^ 51) % 2 ^ 64
    let u2 := (x 2 + u1 / 2 ^ 51) % 2 ^ 64
    let u3 := (x 3 + u2 / 2 ^ 51) % 2 ^ 64
    let u4 := (x 4 + u3 / 2 ^ 51) % 2 ^ 64
    le256 (t.slotBytes k) = u0 % 2 ^ 51 + u1 % 2 ^ 51 * 2 ^ 51 + u2 % 2 ^ 51 * 2 ^ 102 + u3 % 2 ^ 51 * 2 ^ 153 +
      u4 % 2 ^ 51 * 2 ^ 204

/-- The inference the spec marks as its own in R124: when limbs 1 to 4 are at most `2^64 − 2^13`, in loose or reduced
form alike, the slot receives the encoding of `value(a) mod p`; outside the precondition it can receive another
number: five limbs of `2^64 − 1` do. -/
def Obligations.TobWritesTheCanonicalEncoding : Prop :=
  ∀ k rs1 s, ∃ t, exec (.tob k rs1) s = .next t ∧
    (CarryOk (s.reg rs1) → le256 (t.slotBytes k) = value (s.reg rs1) % p) ∧
    (s.reg rs1 = ofLimbs (fun _ => 0xFFFFFFFFFFFFFFFF) → le256 (t.slotBytes k) ≠ value (s.reg rs1) % p)

/-- R125: after step D every limb is below `2^51`, for every operand; the limbs occupy disjoint windows, so their sum,
OR and XOR are the same number; byte `j` is `(value(t) >> 8j) AND 0xFF`; all 32 bytes are written; bit 7 of byte 31 is
always written 0; within TOB's precondition the value written is below `p`. -/
def Obligations.TobPacksThirtyTwoBytes : Prop :=
  ∀ k rs1 s, ∃ t, exec (.tob k rs1) s = .next t ∧
    let x := tobLimbs (s.reg rs1)
    let n := fun i => (limb x i).toNat
    Bnd x 51 ∧ value x < 2 ^ 255 ∧
    value x = n 0 ||| n 1 <<< 51 ||| n 2 <<< 102 ||| n 3 <<< 153 ||| n 4 <<< 204 ∧
    value x = n 0 ^^^ n 1 <<< 51 ^^^ n 2 <<< 102 ^^^ n 3 <<< 153 ^^^ n 4 <<< 204 ∧
    (∀ j : Fin 32, (t.byte (slotAddr k j)).toNat = value x / 2 ^ (8 * j.val) % 2 ^ 8) ∧
    (t.byte (slotAddr k 31)).toNat ≤ 0x7F ∧ (CarryOk (s.reg rs1) → le256 (t.slotBytes k) < p)

/-- The round trips of R126, the general ones as the spec derives them: FROMB then TOB of the same register writes
`bytes32((le256(bs) mod 2^255) mod p)`, so bytes below `p` come back unchanged; TOB then FROMB of the same slot gives
the `Canonical` vector congruent to the register, which equals the register exactly when that was `Canonical`. A
command issued immediately after another sees all its effects (R167). -/
def Obligations.CodecRoundTrips : Prop :=
  (∀ s t u rd k k', exec (.fromb rd k) s = .next t → exec (.tob k' rd) t = .next u →
    u.slotBytes k' = bytes32 (le256 (s.slotBytes k) % 2 ^ 255 % p) ∧
    (le256 (s.slotBytes k) < p → u.slotBytes k' = s.slotBytes k) ∧
    (le256 (s.slotBytes k) = 2 ^ 255 - 1 → u.slotBytes k' = bytes32 18) ∧
    (le256 (s.slotBytes k) = p → u.slotBytes k' = bytes32 0) ∧
    (le256 (s.slotBytes k) = p + 5 → u.slotBytes k' = bytes32 5)) ∧
  ∀ s t u a d k, CarryOk (s.reg a) → exec (.tob k a) s = .next t → exec (.fromb d k) t = .next u →
    Canonical (u.reg d) ∧ residue u d = residue s a ∧ (u.reg d = s.reg a ↔ Canonical (s.reg a))

/-- The canonicity test the spec derives in R127: FROMB a slot, TOB into a second slot; the two slots hold the same
bytes exactly when the input was canonical with bit 255 clear, that is, below `p`. -/
def Obligations.HostCanDetectNonCanonicalInput : Prop :=
  ∀ s t u rd k k', k ≠ k' → exec (.fromb rd k) s = .next t → exec (.tob k' rd) t = .next u →
    (u.slotBytes k = u.slotBytes k' ↔ le256 (s.slotBytes k) < p)

/-! ## The block as a whole -/

/-- Refinement: within its precondition every command computes in GF(p). The destination register's residue is the
field operation on the sources' residues, every other register's residue is unchanged, and TOB writes the residue as a
number below `p` into its slot (the contracts of R90, R92, R93, R101, R104, R105, R115, R120, R124). -/
def Obligations.CommandsComputeInTheField : Prop :=
  ∀ i s, Precondition i s → ∃ t, exec i s = .next t ∧
    (∀ r, destReg i = some r → some (residue t r) = fieldResult i s) ∧
    (∀ r, destReg i ≠ some r → residue t r = residue s r) ∧
    ∀ k a, i = .tob k a → le256 (t.slotBytes k) = residue s a

/-- Soundness of the bound tracking of R164 (its table is the spec's own inference): a program whose needs are met by
the bounds tracked through it runs to its end with every command within its precondition, every register within its
tracked bounds, and `ERR` unchanged. -/
def Obligations.GrowthAnalysisIsSound : Prop :=
  ∀ (is : List Instr) (B : Bounds) (s : State) (rest : List HostOp), s.pending = presented is ++ rest → Within B s →
    growthChecked is B →
    (∃ t, Host.Core.run core is.length s = .next t ∧ Within (boundsThrough is B) t ∧ t.err = s.err ∧ t.pending = rest) ∧
    ∀ (j : Nat) (h : j < is.length) (u : State), Host.Core.run core j s = .next u → Precondition is[j] u

/-- The consequences the spec derives in R165: a sum of up to 7 `Tight` or up to 8 `LimbReduced` values is a legal MUL
operand and exact; SUB of two `Tight` values is below `2^53`, and the sum or difference of two such results is still a
legal multiplicand; `MUL fd, fa, f_one` brings a register back to `Tight` with the same residue. -/
def Obligations.ReducedSumsStayMultiplicable : Prop :=
  (∀ xs : List FieldElement, xs.length ≤ 7 → (∀ x ∈ xs, Tight x) →
    Bnd (xs.foldl addLimbs ⟨0, 0, 0, 0, 0⟩) 54 ∧ value (xs.foldl addLimbs ⟨0, 0, 0, 0, 0⟩) = (xs.map value).sum) ∧
  (∀ xs : List FieldElement, xs.length ≤ 8 → (∀ x ∈ xs, LimbReduced x) →
    Bnd (xs.foldl addLimbs ⟨0, 0, 0, 0, 0⟩) 54 ∧ value (xs.foldl addLimbs ⟨0, 0, 0, 0, 0⟩) = (xs.map value).sum) ∧
  (∀ a b c d, Tight a → Tight b → Tight c → Tight d → Bnd (subLimbs a b) 53 ∧
    Bnd (addLimbs (subLimbs a b) (subLimbs c d)) 54 ∧ Bnd (subLimbs (subLimbs a b) (subLimbs c d)) 54) ∧
  ∀ d a one s, Bnd (s.reg a) 54 → s.reg one = ⟨1, 0, 0, 0, 0⟩ →
    ∃ t, exec (.mul d a one) s = .next t ∧ Tight (t.reg d) ∧ residue t d = residue s a
end

