-- ==== Sys2Proof/Laws/Elements.lean ====
section
/-! SUPPORT. Field elements as limbs, and 32-byte little-endian numbers. -/

namespace Sys2Proof.Machine

@[simp] theorem limb_zero (x : FieldElement) : limb x 0 = x.v0 := rfl
@[simp] theorem limb_one (x : FieldElement) : limb x 1 = x.v1 := rfl
@[simp] theorem limb_two (x : FieldElement) : limb x 2 = x.v2 := rfl
@[simp] theorem limb_three (x : FieldElement) : limb x 3 = x.v3 := rfl
@[simp] theorem limb_four (x : FieldElement) : limb x 4 = x.v4 := rfl

@[simp] theorem limb_ofLimbs (g : Fin 5 → Word) (i : Fin 5) : limb (ofLimbs g) i = g i := by
  fin_cases i <;> rfl

@[simp] theorem ofLimbs_v0 (g : Fin 5 → Word) : (ofLimbs g).v0 = g 0 := rfl
@[simp] theorem ofLimbs_v1 (g : Fin 5 → Word) : (ofLimbs g).v1 = g 1 := rfl
@[simp] theorem ofLimbs_v2 (g : Fin 5 → Word) : (ofLimbs g).v2 = g 2 := rfl
@[simp] theorem ofLimbs_v3 (g : Fin 5 → Word) : (ofLimbs g).v3 = g 3 := rfl
@[simp] theorem ofLimbs_v4 (g : Fin 5 → Word) : (ofLimbs g).v4 = g 4 := rfl

/-- A statement about the five limbs, one at a time. -/
theorem forall_limb {P : Fin 5 → Prop} : (∀ i, P i) ↔ P 0 ∧ P 1 ∧ P 2 ∧ P 3 ∧ P 4 := by
  simp [Fin.forall_fin_succ]

/-- Two field elements with the same limbs are equal. -/
theorem ext_limb {x y : FieldElement} (h : ∀ i, limb x i = limb y i) : x = y := by
  rw [forall_limb] at h
  obtain ⟨h0, h1, h2, h3, h4⟩ := h
  cases x; cases y; simp_all

/-- Writing a limb changes that limb only. -/
theorem limb_setLimb (x : FieldElement) (i j : Fin 5) (v : Word) :
    limb (setLimb x i v) j = if i = j then v else limb x j := by
  fin_cases i <;> fin_cases j <;> rfl

theorem le256_lt (bs : List Byte) : le256 bs < 2 ^ (8 * bs.length) := by
  induction bs with
  | nil => simp [le256]
  | cons b bs ih =>
    have hb := b.isLt
    simp only [le256, List.length_cons, Nat.mul_add, Nat.pow_add]
    omega

/-- Byte `j` of the list is digit `j` of its number in base 256. -/
theorem le256_digit (bs : List Byte) (j : Nat) (h : j < bs.length) :
    le256 bs / 2 ^ (8 * j) % 2 ^ 8 = bs[j].toNat := by
  induction bs generalizing j with
  | nil => simp at h
  | cons b bs ih =>
    have hb := b.isLt
    cases j with
    | zero => simp only [le256, Nat.mul_zero, Nat.pow_zero, Nat.div_one, List.getElem_cons_zero]; omega
    | succ j =>
      have := ih j (by simpa using h)
      rw [List.getElem_cons_succ, ← this, Nat.mul_add, Nat.add_comm (8 * j), Nat.pow_add, ← Nat.div_div_eq_div_mul]
      congr 2
      simp only [le256]
      omega

@[simp] theorem length_bytes32 (n : Nat) : (bytes32 n).length = 32 := by simp [bytes32]

/-- Byte `j` that `bytes32` writes. -/
theorem bytes32_getElem (n j : Nat) (h : j < (bytes32 n).length) :
    (bytes32 n)[j] = BitVec.ofNat 8 (n / 2 ^ (8 * j)) := by
  have h255 : ∀ m : Nat, m &&& 0xFF = m % 2 ^ 8 := fun m => Nat.and_two_pow_sub_one_eq_mod m 8
  apply BitVec.eq_of_toNat_eq
  simp only [bytes32, List.getElem_map, List.getElem_range, Nat.shiftRight_eq_div_pow, h255, BitVec.toNat_ofNat,
    Nat.mod_mod]

/-- The digits `j .. j + k - 1` of `n` in base 256, as a list of bytes, denote that part of `n`. -/
theorem le256_digits (n j k : Nat) :
    le256 ((List.range' j k).map fun i => BitVec.ofNat 8 (n / 2 ^ (8 * i))) = n / 2 ^ (8 * j) % 2 ^ (8 * k) := by
  induction k generalizing j with
  | zero => simp [le256, Nat.mod_one]
  | succ k ih =>
    rw [List.range'_succ, List.map_cons, le256, ih, BitVec.toNat_ofNat,
      show 8 * (j + 1) = 8 * j + 8 by ring, show 8 * (k + 1) = 8 + 8 * k by ring, Nat.pow_add 2 (8 * j),
      ← Nat.div_div_eq_div_mul, Nat.pow_add, Nat.mod_mul]

/-- `le256` undoes `bytes32` below `2^256` (R11). -/
theorem le256_bytes32 (n : Nat) : le256 (bytes32 n) = n % 2 ^ 256 := by
  have h : bytes32 n = (List.range' 0 32).map fun i => BitVec.ofNat 8 (n / 2 ^ (8 * i)) := by
    apply List.ext_getElem (by simp)
    intro j h1 h2
    rw [bytes32_getElem]
    simp
  rw [h, le256_digits]
  simp

/-- `bytes32` undoes `le256` on 32 bytes (R11). -/
theorem bytes32_le256 (bs : List Byte) (h : bs.length = 32) : bytes32 (le256 bs) = bs := by
  apply List.ext_getElem (by simp [h])
  intro j h1 h2
  apply BitVec.eq_of_toNat_eq
  rw [bytes32_getElem, BitVec.toNat_ofNat, le256_digit bs j h2]

end Sys2Proof.Machine
end

