-- ==== Sys2Proof/Laws/Datapath.lean ====
section
/-! SUPPORT. The datapath in natural numbers: what each primitive computes, with its reductions modulo 2^64, and what
remains when nothing wraps. -/

namespace Sys2Proof.Machine

theorem toNat_and_mask51 (x : Word) : (x &&& mask51).toNat = x.toNat % 2 ^ 51 := by
  rw [BitVec.toNat_and]
  exact Nat.and_two_pow_sub_one_eq_mod x.toNat 51

theorem toNat_shr51 (x : Word) : (x >>> 51).toNat = x.toNat / 2 ^ 51 := by
  rw [BitVec.toNat_ushiftRight, Nat.shiftRight_eq_div_pow]

theorem toNat_mul19 (x : Word) : (19 * x).toNat = 19 * x.toNat % 2 ^ 64 := by
  rw [BitVec.toNat_mul]; rfl

theorem toNat_mul38 (x : Word) : (38 * x).toNat = 38 * x.toNat % 2 ^ 64 := by
  rw [BitVec.toNat_mul]; rfl

theorem toNat_mul2 (x : Word) : (2 * x).toNat = 2 * x.toNat % 2 ^ 64 := by
  rw [BitVec.toNat_mul]; rfl

/-- The carry pass when limbs 1 to 4 are at most `2^64 − 2^13`: nothing wraps (R84). -/
theorem carryPass_exact (x : FieldElement) (h : CarryOk x) :
    let u1 := x.v1.toNat + x.v0.toNat / 2 ^ 51
    let u2 := x.v2.toNat + u1 / 2 ^ 51
    let u3 := x.v3.toNat + u2 / 2 ^ 51
    let u4 := x.v4.toNat + u3 / 2 ^ 51
    (carryPass x).v0.toNat = x.v0.toNat % 2 ^ 51 + 19 * (u4 / 2 ^ 51) ∧ (carryPass x).v1.toNat = u1 % 2 ^ 51 ∧
      (carryPass x).v2.toNat = u2 % 2 ^ 51 ∧ (carryPass x).v3.toNat = u3 % 2 ^ 51 ∧
      (carryPass x).v4.toNat = u4 % 2 ^ 51 ∧ u4 < 2 ^ 64 := by
  obtain ⟨h1, h2, h3, h4⟩ := h
  have b0 := x.v0.isLt
  have w1 : (x.v1 + (x.v0 >>> 51)).toNat = x.v1.toNat + x.v0.toNat / 2 ^ 51 := by
    rw [BitVec.toNat_add, toNat_shr51]; omega
  have w2 : (x.v2 + ((x.v1 + (x.v0 >>> 51)) >>> 51)).toNat
      = x.v2.toNat + (x.v1.toNat + x.v0.toNat / 2 ^ 51) / 2 ^ 51 := by
    rw [BitVec.toNat_add, toNat_shr51, w1]; omega
  have w3 : (x.v3 + ((x.v2 + ((x.v1 + (x.v0 >>> 51)) >>> 51)) >>> 51)).toNat
      = x.v3.toNat + (x.v2.toNat + (x.v1.toNat + x.v0.toNat / 2 ^ 51) / 2 ^ 51) / 2 ^ 51 := by
    rw [BitVec.toNat_add, toNat_shr51, w2]; omega
  have w4 : (x.v4 + ((x.v3 + ((x.v2 + ((x.v1 + (x.v0 >>> 51)) >>> 51)) >>> 51)) >>> 51)).toNat
      = x.v4.toNat + (x.v3.toNat + (x.v2.toNat + (x.v1.toNat + x.v0.toNat / 2 ^ 51) / 2 ^ 51) / 2 ^ 51) / 2 ^ 51 := by
    rw [BitVec.toNat_add, toNat_shr51, w3]; omega
  simp only [carryPass, toNat_and_mask51, w1, w2, w3, w4]
  refine ⟨?_, trivial, trivial, trivial, trivial, ?_⟩
  · rw [BitVec.toNat_add, toNat_and_mask51, toNat_mul19, toNat_shr51, w4]; omega
  · omega

/-- The widening product is the exact product (R80). -/
theorem toNat_widen (x y : Word) : (widen x y).toNat = x.toNat * y.toNat := by
  have hx := x.isLt
  have hy := y.isLt
  have h : x.toNat * y.toNat < 2 ^ 64 * 2 ^ 64 := Nat.mul_lt_mul'' hx hy
  rw [widen, BitVec.toNat_mul, BitVec.toNat_setWidth, BitVec.toNat_setWidth,
    Nat.mod_eq_of_lt (by omega : x.toNat < 2 ^ 128), Nat.mod_eq_of_lt (by omega : y.toNat < 2 ^ 128)]
  exact Nat.mod_eq_of_lt (by simpa [← Nat.pow_add] using h)

/-- The carry out of an accumulator, truncated to 64 bits (R85). -/
theorem toNat_accCarry (a : Acc) : (accCarry a).toNat = a.toNat / 2 ^ 51 % 2 ^ 64 := by
  rw [accCarry, BitVec.toNat_setWidth, BitVec.toNat_ushiftRight, Nat.shiftRight_eq_div_pow]

/-- The part of an accumulator that stays (R85). -/
theorem toNat_accLow (a : Acc) : (accLow a).toNat = a.toNat % 2 ^ 51 := by
  rw [accLow, toNat_and_mask51, BitVec.toNat_setWidth]
  omega

/-- The fold when no carry is truncated and no limb wraps (R87). -/
theorem fold128_exact (A : Accs) (h0 : A.a0.toNat < 2 ^ 115) (h1 : A.a1.toNat < 2 ^ 115) (h2 : A.a2.toNat < 2 ^ 115)
    (h3 : A.a3.toNat < 2 ^ 115) (h4 : A.a4.toNat < 2 ^ 115)
    (g0 : A.a0.toNat % 2 ^ 51 + 19 * (A.a4.toNat / 2 ^ 51) < 2 ^ 64)
    (g1 : A.a1.toNat % 2 ^ 51 + A.a0.toNat / 2 ^ 51 < 2 ^ 64) (g2 : A.a2.toNat % 2 ^ 51 + A.a1.toNat / 2 ^ 51 < 2 ^ 64)
    (g3 : A.a3.toNat % 2 ^ 51 + A.a2.toNat / 2 ^ 51 < 2 ^ 64) (g4 : A.a4.toNat % 2 ^ 51 + A.a3.toNat / 2 ^ 51 < 2 ^ 64) :
    (fold128 A).v0.toNat = A.a0.toNat % 2 ^ 51 + 19 * (A.a4.toNat / 2 ^ 51) ∧
      (fold128 A).v1.toNat = A.a1.toNat % 2 ^ 51 + A.a0.toNat / 2 ^ 51 ∧
      (fold128 A).v2.toNat = A.a2.toNat % 2 ^ 51 + A.a1.toNat / 2 ^ 51 ∧
      (fold128 A).v3.toNat = A.a3.toNat % 2 ^ 51 + A.a2.toNat / 2 ^ 51 ∧
      (fold128 A).v4.toNat = A.a4.toNat % 2 ^ 51 + A.a3.toNat / 2 ^ 51 := by
  refine ⟨?_, ?_, ?_, ?_, ?_⟩
  · simp only [fold128, BitVec.toNat_add, toNat_mul19, toNat_accLow, toNat_accCarry]; omega
  · simp only [fold128, BitVec.toNat_add, toNat_accLow, toNat_accCarry]; omega
  · simp only [fold128, BitVec.toNat_add, toNat_accLow, toNat_accCarry]; omega
  · simp only [fold128, BitVec.toNat_add, toNat_accLow, toNat_accCarry]; omega
  · simp only [fold128, BitVec.toNat_add, toNat_accLow, toNat_accCarry]; omega

/-- The subtraction constants as numbers (R91). -/
theorem toNat_kConst (i : Fin 5) : (kConst i).toNat = if i = 0 then 2 ^ 52 - 38 else 2 ^ 52 - 2 := by
  fin_cases i <;> rfl

/-- CMOV with `flag = 1`: the mask is all ones (R115). -/
theorem cmovLimbs_one (f g : FieldElement) : cmovLimbs 1 f g = g := by
  apply ext_limb
  intro i
  have h : ((0 : Word) - BitVec.setWidth 64 (1 : BitVec 1)) = BitVec.allOnes 64 := by decide
  rw [cmovLimbs, limb_ofLimbs, h, BitVec.allOnes_and, ← BitVec.xor_assoc, BitVec.xor_self, BitVec.zero_xor]

/-- CMOV with `flag = 0`: the mask is zero (R115). -/
theorem cmovLimbs_zero (f g : FieldElement) : cmovLimbs 0 f g = f := by
  apply ext_limb
  intro i
  have h : ((0 : Word) - BitVec.setWidth 64 (0 : BitVec 1)) = 0#64 := by decide
  rw [cmovLimbs, limb_ofLimbs, h, BitVec.zero_and, BitVec.xor_zero]

/-- A one-bit number is 0 or 1. -/
theorem flag_cases (flag : BitVec 1) : flag = 0 ∨ flag = 1 := by
  revert flag; decide

/-- CMOV as a selection (R115). -/
theorem cmovLimbs_eq (flag : BitVec 1) (f g : FieldElement) : cmovLimbs flag f g = if flag = 1 then g else f := by
  rcases flag_cases flag with rfl | rfl
  · rw [cmovLimbs_zero]; rfl
  · rw [cmovLimbs_one]; rfl

/-- Limb `i` of FROMB: the 51-bit window `51i+50 .. 51i` of the number in the slot (R120). -/
theorem toNat_frombLimbs (n : Nat) (i : Fin 5) :
    (limb (frombLimbs n) i).toNat = n / 2 ^ (51 * i.val) % 2 ^ 51 := by
  have h : ∀ m : Nat, m &&& mask51.toNat = m % 2 ^ 51 := fun m => Nat.and_two_pow_sub_one_eq_mod m 51
  rw [frombLimbs, limb_ofLimbs, h, BitVec.toNat_ofNat, Nat.shiftRight_eq_div_pow]
  exact Nat.mod_eq_of_lt (lt_of_lt_of_le (Nat.mod_lt _ (by positivity)) (by norm_num))

/-- Every limb that TOB packs is below `2^51`, whatever the operand (R125). -/
theorem tobLimbs_bnd (a : FieldElement) : Bnd (tobLimbs a) 51 := by
  rw [Bnd, forall_limb]
  refine ⟨?_, ?_, ?_, ?_, ?_⟩ <;>
    · simp only [tobLimbs, finalPass, limb_zero, limb_one, limb_two, limb_three, limb_four, toNat_and_mask51]
      exact Nat.mod_lt _ (by positivity)

end Sys2Proof.Machine
end

