-- ==== Sys2Proof/Laws/Decode.lean ====
section
/-! SUPPORT. Fields and words as numbers, and small facts of the decoder. -/

namespace Sys2Proof

/-- The fields of a word put together from fields are those fields. -/
theorem fieldsOf_wordOf (c : Fields) : fieldsOf (wordOf c) = c := by
  obtain ⟨op, rd, rs1, rs2, slot, zero, flag⟩ := c
  simp only [fieldsOf, wordOf, Fields.mk.injEq]
  refine ⟨?_, ?_, ?_, ?_, ?_, ?_, ?_⟩ <;>
    · apply BitVec.eq_of_getLsbD_eq
      intro i hi
      simp only [BitVec.getLsbD_extractLsb', BitVec.getLsbD_append]
      interval_cases i <;> simp

/-- A word is its fields put together. -/
theorem wordOf_fieldsOf (w : CmdWord) : wordOf (fieldsOf w) = w := by
  apply BitVec.eq_of_getLsbD_eq
  intro i hi
  simp only [fieldsOf, wordOf, BitVec.getLsbD_extractLsb', BitVec.getLsbD_append]
  interval_cases i <;> simp

/-- Different fields make different words. -/
theorem wordOf_inj {c d : Fields} : wordOf c = wordOf d ↔ c = d := by
  constructor
  · intro h; rw [← fieldsOf_wordOf c, h, fieldsOf_wordOf]
  · rintro rfl; rfl

theorem toNat_append_eq {n m : Nat} (x : BitVec n) (y : BitVec m) :
    (x ++ y).toNat = x.toNat * 2 ^ m + y.toNat := by
  rw [BitVec.toNat_append, ← Nat.shiftLeft_add_eq_or_of_lt y.isLt, Nat.shiftLeft_eq]

/-- A word as the weighted sum of its fields (R64). -/
theorem wordOf_toNat (c : Fields) :
    (wordOf c).toNat = c.op.toNat * 2 ^ 24 + c.rd.toNat * 2 ^ 20 + c.rs1.toNat * 2 ^ 16 + c.rs2.toNat * 2 ^ 12 +
      c.slot.toNat * 2 ^ 8 + c.zero.toNat * 2 + c.flag.toNat := by
  simp only [wordOf, toNat_append_eq]
  omega

/-- The fields of a word as numbers (R61). -/
theorem fieldsOf_toNat (w : CmdWord) :
    (fieldsOf w).op.toNat = w.toNat / 2 ^ 24 ∧ (fieldsOf w).rd.toNat = w.toNat / 2 ^ 20 % 2 ^ 4 ∧
    (fieldsOf w).rs1.toNat = w.toNat / 2 ^ 16 % 2 ^ 4 ∧ (fieldsOf w).rs2.toNat = w.toNat / 2 ^ 12 % 2 ^ 4 ∧
    (fieldsOf w).slot.toNat = w.toNat / 2 ^ 8 % 2 ^ 4 ∧ (fieldsOf w).zero.toNat = w.toNat / 2 % 2 ^ 7 ∧
    (fieldsOf w).flag.toNat = w.toNat % 2 := by
  have := w.isLt
  simp only [fieldsOf, BitVec.extractLsb'_toNat, Nat.shiftRight_eq_div_pow]
  refine ⟨?_, ?_, ?_, ?_, ?_, ?_, ?_⟩ <;> first | trivial | omega

/-- Masking words is masking their fields. -/
theorem wordOf_and (c m : Fields) :
    wordOf c &&& wordOf m = wordOf ⟨c.op &&& m.op, c.rd &&& m.rd, c.rs1 &&& m.rs1, c.rs2 &&& m.rs2,
      c.slot &&& m.slot, c.zero &&& m.zero, c.flag &&& m.flag⟩ := by
  simp only [wordOf, ← BitVec.and_append]

theorem commandIf_eq_command {b : Bool} {i j : Instr} : commandIf b i = .command j ↔ b = true ∧ i = j := by
  cases b <;> simp [commandIf]

end Sys2Proof
end

