-- ==== Sys2Proof/Laws/State.lean ====
section
/-! SUPPORT. One lemma per field per update of the state, so that no proof unfolds a record update. -/

namespace Sys2Proof.Machine

variable (s : State)

section setReg
variable (r : Reg) (x : FieldElement)
@[simp] theorem setReg_buf : (s.setReg r x).buf = s.buf := rfl
@[simp] theorem setReg_err : (s.setReg r x).err = s.err := rfl
@[simp] theorem setReg_errcmd : (s.setReg r x).errcmd = s.errcmd := rfl
@[simp] theorem setReg_resets : (s.setReg r x).resets = s.resets := rfl
@[simp] theorem setReg_pending : (s.setReg r x).pending = s.pending := rfl
@[simp] theorem setReg_reply : (s.setReg r x).reply = s.reply := rfl
@[simp] theorem setReg_statusWord : (s.setReg r x).statusWord = s.statusWord := rfl
@[simp] theorem setReg_byte (a : Addr) : (s.setReg r x).byte a = s.byte a := rfl
@[simp] theorem setReg_slotBytes (k : Slot) : (s.setReg r x).slotBytes k = s.slotBytes k := rfl
end setReg

section setByte
variable (a : Addr) (b : Byte)
@[simp] theorem setByte_regs : (s.setByte a b).regs = s.regs := rfl
@[simp] theorem setByte_err : (s.setByte a b).err = s.err := rfl
@[simp] theorem setByte_errcmd : (s.setByte a b).errcmd = s.errcmd := rfl
@[simp] theorem setByte_resets : (s.setByte a b).resets = s.resets := rfl
@[simp] theorem setByte_pending : (s.setByte a b).pending = s.pending := rfl
@[simp] theorem setByte_reply : (s.setByte a b).reply = s.reply := rfl
@[simp] theorem setByte_statusWord : (s.setByte a b).statusWord = s.statusWord := rfl
@[simp] theorem setByte_reg (r : Reg) : (s.setByte a b).reg r = s.reg r := rfl
end setByte

section setSlot
variable (k : Slot) (bs : List Byte)
@[simp] theorem setSlot_regs : (s.setSlot k bs).regs = s.regs := rfl
@[simp] theorem setSlot_err : (s.setSlot k bs).err = s.err := rfl
@[simp] theorem setSlot_errcmd : (s.setSlot k bs).errcmd = s.errcmd := rfl
@[simp] theorem setSlot_resets : (s.setSlot k bs).resets = s.resets := rfl
@[simp] theorem setSlot_pending : (s.setSlot k bs).pending = s.pending := rfl
@[simp] theorem setSlot_reply : (s.setSlot k bs).reply = s.reply := rfl
@[simp] theorem setSlot_statusWord : (s.setSlot k bs).statusWord = s.statusWord := rfl
@[simp] theorem setSlot_reg (r : Reg) : (s.setSlot k bs).reg r = s.reg r := rfl
end setSlot

section respond
variable (y : Reply)
@[simp] theorem respond_regs : (s.respond y).regs = s.regs := rfl
@[simp] theorem respond_buf : (s.respond y).buf = s.buf := rfl
@[simp] theorem respond_err : (s.respond y).err = s.err := rfl
@[simp] theorem respond_errcmd : (s.respond y).errcmd = s.errcmd := rfl
@[simp] theorem respond_resets : (s.respond y).resets = s.resets := rfl
@[simp] theorem respond_pending : (s.respond y).pending = s.pending := rfl
@[simp] theorem respond_reply : (s.respond y).reply = y := rfl
@[simp] theorem respond_statusWord : (s.respond y).statusWord = s.statusWord := rfl
@[simp] theorem respond_reg (r : Reg) : (s.respond y).reg r = s.reg r := rfl
@[simp] theorem respond_byte (a : Addr) : (s.respond y).byte a = s.byte a := rfl
@[simp] theorem respond_slotBytes (k : Slot) : (s.respond y).slotBytes k = s.slotBytes k := rfl
end respond

section raiseIllegal
variable (w : CmdWord)
@[simp] theorem raiseIllegal_regs : (s.raiseIllegal w).regs = s.regs := rfl
@[simp] theorem raiseIllegal_buf : (s.raiseIllegal w).buf = s.buf := rfl
@[simp] theorem raiseIllegal_err : (s.raiseIllegal w).err = true := rfl
@[simp] theorem raiseIllegal_errcmd : (s.raiseIllegal w).errcmd = if s.err then s.errcmd else w := rfl
@[simp] theorem raiseIllegal_resets : (s.raiseIllegal w).resets = s.resets := rfl
@[simp] theorem raiseIllegal_pending : (s.raiseIllegal w).pending = s.pending := rfl
@[simp] theorem raiseIllegal_reply : (s.raiseIllegal w).reply = .err := rfl
@[simp] theorem raiseIllegal_statusWord : (s.raiseIllegal w).statusWord = 1 := rfl
@[simp] theorem raiseIllegal_reg (r : Reg) : (s.raiseIllegal w).reg r = s.reg r := rfl
@[simp] theorem raiseIllegal_byte (a : Addr) : (s.raiseIllegal w).byte a = s.byte a := rfl
end raiseIllegal

section hostReset
@[simp] theorem hostReset_regs : s.hostReset.regs = freeRegs (s.resets + 1) := rfl
@[simp] theorem hostReset_buf : s.hostReset.buf = [] := rfl
@[simp] theorem hostReset_err : s.hostReset.err = false := rfl
@[simp] theorem hostReset_errcmd : s.hostReset.errcmd = 0 := rfl
@[simp] theorem hostReset_resets : s.hostReset.resets = s.resets + 1 := rfl
@[simp] theorem hostReset_pending : s.hostReset.pending = s.pending := rfl
@[simp] theorem hostReset_reply : s.hostReset.reply = .nothing := rfl
@[simp] theorem hostReset_statusWord : s.hostReset.statusWord = 0 := rfl
end hostReset

section pending
variable (os : List HostOp)
@[simp] theorem withPending_reg (r : Reg) : State.reg { s with pending := os } r = s.reg r := rfl
@[simp] theorem withPending_byte (a : Addr) : State.byte { s with pending := os } a = s.byte a := rfl
@[simp] theorem withPending_slotBytes (k : Slot) : State.slotBytes { s with pending := os } k = s.slotBytes k := rfl
@[simp] theorem withPending_statusWord : State.statusWord { s with pending := os } = s.statusWord := rfl
@[simp] theorem present_pending (w : CmdWord) : (s.present w).pending = .cmd w :: s.pending := rfl
@[simp] theorem present_reg (w : CmdWord) (r : Reg) : (s.present w).reg r = s.reg r := rfl
@[simp] theorem present_byte (w : CmdWord) (a : Addr) : (s.present w).byte a = s.byte a := rfl
@[simp] theorem present_err (w : CmdWord) : (s.present w).err = s.err := rfl
@[simp] theorem present_errcmd (w : CmdWord) : (s.present w).errcmd = s.errcmd := rfl
end pending

/-- Reading a register after writing one. -/
theorem reg_setReg (r r' : Reg) (x : FieldElement) :
    (s.setReg r x).reg r' = if r = r' then x else s.reg r' := by
  simp [State.reg, State.setReg, Vector.getElem_set, Fin.ext_iff]

@[simp] theorem reg_setReg_self (r : Reg) (x : FieldElement) : (s.setReg r x).reg r = x := by
  simp [reg_setReg]

@[simp] theorem reg_setReg_ne {r r' : Reg} (x : FieldElement) (h : r ≠ r') :
    (s.setReg r x).reg r' = s.reg r' := by
  simp [reg_setReg, h]

/-- Writing back what a register holds changes nothing. -/
@[simp] theorem setReg_reg_self (r : Reg) : s.setReg r (s.reg r) = s := by
  simp [State.setReg, State.reg]

/-- `STATUS` as a number: bit 0 is `ERR`, every other bit 0. -/
theorem statusWord_toNat : s.statusWord.toNat = if s.err then 1 else 0 := by
  unfold State.statusWord; split <;> rfl

@[simp] theorem reg_freeRegs (n : Nat) (r : Reg) (i : Fin 5) :
    limb ((freeRegs n)[r.val]) i = Config.freeLimb n r i := by
  rw [freeRegs, Vector.getElem_ofFn]
  fin_cases i <;> rfl

end Sys2Proof.Machine
end

