-- ==== Sys2Proof/Laws/Memory.lean ====
section
/-! SUPPORT. The buffer: read after write, and that every operation keeps the canonical form. -/

namespace Sys2Proof.Machine

/-- Reading after writing one byte. -/
theorem lookup_store (x a : Nat) (b : Byte) (m : Memory) :
    Memory.lookup x (Memory.store a b m) = if x = a then some b else Memory.lookup x m := by
  induction m with
  | nil => simp [Memory.store, Memory.lookup, eq_comm]
  | cons c m ih =>
    simp only [Memory.store]
    split
    · simp [Memory.lookup, eq_comm]
    · split
      · rename_i h; subst h
        simp only [Memory.lookup]
        by_cases hx : x = c.1 <;> simp [hx, eq_comm]
      · simp only [Memory.lookup, ih]
        by_cases hx : c.1 = x
        · have : x ≠ a := by omega
          simp [hx, this]
        · simp [hx]

/-- Reading after writing a list of bytes to rising addresses. -/
theorem lookup_storeList (x a : Nat) (bs : List Byte) (m : Memory) :
    Memory.lookup x (Memory.storeList a bs m) =
      if h : a ≤ x ∧ x - a < bs.length then some (bs[x - a]'h.2) else Memory.lookup x m := by
  induction bs generalizing a m with
  | nil => simp [Memory.storeList]
  | cons b bs ih =>
    rw [Memory.storeList, ih, lookup_store]
    by_cases hx : x = a
    · subst hx; simp
    · by_cases ha : a ≤ x
      · obtain ⟨d, rfl⟩ : ∃ d, x = a + 1 + d := ⟨x - a - 1, by omega⟩
        have e1 : a + 1 + d - (a + 1) = d := by omega
        have e2 : a + 1 + d - a = d + 1 := by omega
        simp only [e1, e2, List.length_cons, List.getElem_cons_succ, hx, if_false]
        by_cases hd : d < bs.length
        · rw [dif_pos ⟨by omega, hd⟩, dif_pos ⟨by omega, by omega⟩]
        · rw [dif_neg (by omega), dif_neg (by omega)]
      · rw [dif_neg (by omega), dif_neg (by omega), if_neg hx]

/-- A listed address is above the bound and below every later one. -/
theorem risingFrom_cons (lo : Option Nat) (c : Host.Cell) (m : Memory) :
    Memory.risingFrom lo (c :: m) = true ↔ (∀ l, lo = some l → l < c.1) ∧ Memory.risingFrom (some c.1) m = true := by
  cases lo <;> simp [Memory.risingFrom]

/-- The addresses stay strictly rising after a write. -/
theorem risingFrom_store (lo : Option Nat) (a : Nat) (b : Byte) (m : Memory)
    (h : Memory.risingFrom lo m = true) (ha : ∀ l, lo = some l → l < a) :
    Memory.risingFrom lo (Memory.store a b m) = true := by
  induction m generalizing lo with
  | nil => rw [Memory.store, risingFrom_cons]; exact ⟨ha, rfl⟩
  | cons c m ih =>
    rw [risingFrom_cons] at h
    simp only [Memory.store]
    split
    · rename_i hlt
      rw [risingFrom_cons, risingFrom_cons]
      exact ⟨ha, by simpa using hlt, h.2⟩
    · split
      · rename_i heq
        rw [risingFrom_cons]
        exact ⟨ha, by rw [heq]; exact h.2⟩
      · rw [risingFrom_cons]
        have hca : c.1 < a := by omega
        exact ⟨h.1, ih (some c.1) h.2 (by simpa using hca)⟩

/-- All addresses stay inside the buffer after a write inside it. -/
theorem inside_store (a : Nat) (b : Byte) (m : Memory) (ha : a < 512)
    (h : (m.all fun c => decide (c.1 < 512)) = true) :
    ((Memory.store a b m).all fun c => decide (c.1 < 512)) = true := by
  induction m with
  | nil => simpa [Memory.store] using ha
  | cons c m ih =>
    simp only [List.all_cons, Bool.and_eq_true, decide_eq_true_eq] at h
    simp only [Memory.store]
    split
    · simp [ha, h.1, h.2]
    · split
      · simp [ha, h.2]
      · simp [h.1, ih h.2]

/-- Writing one byte keeps the canonical form. -/
theorem wf_store (a : Nat) (b : Byte) (m : Memory) (ha : a < 512) (h : Memory.wf m = true) :
    Memory.wf (Memory.store a b m) = true := by
  rw [Memory.wf, Bool.and_eq_true] at h ⊢
  exact ⟨risingFrom_store none a b m h.1 (by simp), inside_store a b m ha h.2⟩

/-- Writing a list of bytes inside the buffer keeps the canonical form. -/
theorem wf_storeList (a : Nat) (bs : List Byte) (m : Memory) (ha : a + bs.length ≤ 512) (h : Memory.wf m = true) :
    Memory.wf (Memory.storeList a bs m) = true := by
  induction bs generalizing a m with
  | nil => exact h
  | cons b bs ih =>
    simp only [List.length_cons] at ha
    exact ih (a + 1) _ (by omega) (wf_store a b m (by omega) h)

@[simp] theorem slotAddr_val (k : Slot) (j : Fin 32) : (slotAddr k j).val = 32 * k.val + j.val := rfl

/-- Byte `j` of slot `k` is no byte of any other slot. -/
theorem slotAddr_inj {k k' : Slot} {j j' : Fin 32} (h : slotAddr k j = slotAddr k' j') : k = k' ∧ j = j' := by
  have := congrArg Fin.val h
  simp only [slotAddr_val] at this
  exact ⟨Fin.ext (by omega), Fin.ext (by omega)⟩

/-- Reading a byte after a host byte write. -/
theorem byte_setByte (s : State) (a x : Addr) (b : Byte) :
    (s.setByte a b).byte x = if x = a then b else s.byte x := by
  simp only [State.byte, State.setByte, lookup_store, Fin.ext_iff]
  split <;> rfl

/-- Reading a byte after a slot has been written. -/
theorem byte_setSlot (s : State) (k : Slot) (bs : List Byte) (h : bs.length = 32) (x : Addr) :
    (s.setSlot k bs).byte x = if hx : x.val / 32 = k.val then bs[x.val % 32]'(by omega) else s.byte x := by
  simp only [State.byte, State.setSlot, lookup_storeList, slotAddr_val]
  by_cases hx : x.val / 32 = k.val
  · have h1 : 32 * k.val + (0 : Fin 32).val ≤ x.val ∧ x.val - (32 * k.val + (0 : Fin 32).val) < bs.length := by
      simp; omega
    have h2 : x.val - (32 * k.val + (0 : Fin 32).val) = x.val % 32 := by simp; omega
    rw [dif_pos h1, dif_pos hx, Option.getD_some]
    simp only [h2]
  · rw [dif_neg (by simp; omega), dif_neg hx]

/-- Byte `j` of the slot just written. -/
theorem byte_setSlot_self (s : State) (k : Slot) (bs : List Byte) (h : bs.length = 32) (j : Fin 32) :
    (s.setSlot k bs).byte (slotAddr k j) = bs[j.val] := by
  rw [byte_setSlot s k bs h, dif_pos (by simp; omega)]
  simp [Nat.mod_eq_of_lt j.isLt]

/-- A slot write leaves every byte outside the slot alone. -/
theorem byte_setSlot_other (s : State) (k : Slot) (bs : List Byte) (h : bs.length = 32) (x : Addr)
    (hx : ∀ j, x ≠ slotAddr k j) : (s.setSlot k bs).byte x = s.byte x := by
  rw [byte_setSlot s k bs h, dif_neg]
  intro hd
  exact hx ⟨x.val % 32, by omega⟩ (Fin.ext (by simp; omega))

@[simp] theorem length_slotBytes (s : State) (k : Slot) : (s.slotBytes k).length = 32 := by simp [State.slotBytes]

theorem slotBytes_getElem (s : State) (k : Slot) (j : Nat) (h : j < (s.slotBytes k).length) :
    (s.slotBytes k)[j] = s.byte (slotAddr k ⟨j, by simpa using h⟩) := by
  simp [State.slotBytes]

/-- A slot holds what was written to it last. -/
@[simp] theorem slotBytes_setSlot (s : State) (k : Slot) (bs : List Byte) (h : bs.length = 32) :
    (s.setSlot k bs).slotBytes k = bs := by
  apply List.ext_getElem (by simp [h])
  intro j h1 h2
  rw [slotBytes_getElem, byte_setSlot_self s k bs h]

/-- Two states with the same 32 bytes in a slot. -/
theorem slotBytes_congr {s t : State} {k : Slot} (h : ∀ j, s.byte (slotAddr k j) = t.byte (slotAddr k j)) :
    s.slotBytes k = t.slotBytes k := by
  simp [State.slotBytes, h]

/-- The addresses of a slot are those whose quotient by 32 is its number (R43). -/
theorem exists_slotAddr (a : Addr) (k : Slot) : (∃ j, a = slotAddr k j) ↔ a.val / 32 = k.val := by
  constructor
  · rintro ⟨j, rfl⟩; simp; omega
  · intro h; exact ⟨⟨a.val % 32, by omega⟩, Fin.ext (by simp; omega)⟩

/-- Writing a slot keeps the canonical form. -/
theorem wf_setSlot (s : State) (k : Slot) (bs : List Byte) (hb : bs.length = 32) (h : Memory.wf s.buf = true) :
    Memory.wf (s.setSlot k bs).buf = true := by
  have h1 : 32 * k.val + bs.length ≤ 512 := by omega
  exact wf_storeList (32 * k.val) bs s.buf h1 h

/-- Writing a byte keeps the canonical form. -/
theorem wf_setByte (s : State) (a : Addr) (b : Byte) (h : Memory.wf s.buf = true) :
    Memory.wf (s.setByte a b).buf = true := wf_store a.val b s.buf a.isLt h

end Sys2Proof.Machine
end

