-- ==== Sys2Proof/Laws/Exec.lean ====
section
/-! SUPPORT. What a command, a host operation and a step can do, said once: inversion lemmas that later proofs cite
in place of the definitions. -/

namespace Sys2Proof.Machine

/-- Every command answers a next state: it writes its destination register, or (TOB) its slot, and nothing else. -/
theorem exec_cases (i : Instr) (s : State) :
    (∃ rd x, destReg i = some rd ∧ destSlot i = none ∧ exec i s = .next (s.setReg rd x)) ∨
      ∃ slot n, destReg i = none ∧ destSlot i = some slot ∧ exec i s = .next (s.setSlot slot (bytes32 n)) := by
  cases i with
  | add rd rs1 rs2 => exact .inl ⟨rd, _, rfl, rfl, rfl⟩
  | sub rd rs1 rs2 => exact .inl ⟨rd, _, rfl, rfl, rfl⟩
  | neg rd rs1 => exact .inl ⟨rd, _, rfl, rfl, rfl⟩
  | mul rd rs1 rs2 => exact .inl ⟨rd, _, rfl, rfl, rfl⟩
  | sqr rd rs1 => exact .inl ⟨rd, _, rfl, rfl, rfl⟩
  | sqr2 rd rs1 => exact .inl ⟨rd, _, rfl, rfl, rfl⟩
  | cmov rd rs1 flag => exact .inl ⟨rd, _, rfl, rfl, rfl⟩
  | fromb rd slot => exact .inl ⟨rd, _, rfl, rfl, rfl⟩
  | tob slot rs1 => exact .inr ⟨slot, _, rfl, rfl, rfl⟩

/-- A register write changes nothing but the register. -/
theorem setReg_only (s : State) (rd : Reg) (x : FieldElement) : OnlyRegChanged rd s (s.setReg rd x) where
  regs _ h := reg_setReg_ne s x (Ne.symm h)
  bytes _ := rfl
  err := rfl
  errcmd := rfl
  resets := rfl
  pending := rfl
  reply := rfl

/-- A slot write changes nothing but the slot. -/
theorem setSlot_only (s : State) (k : Slot) (bs : List Byte) (h : bs.length = 32) :
    OnlySlotChanged k s (s.setSlot k bs) where
  regs _ := rfl
  bytes a ha := byte_setSlot_other s k bs h a ha
  err := rfl
  errcmd := rfl
  resets := rfl
  pending := rfl
  reply := rfl

/-- A legal word runs its command and answers `ok`. -/
theorem hostCmd_command {w : CmdWord} {i : Instr} (h : decode w = .command i) (s : State) :
    ∃ t, exec i s = .next t ∧ hostCmd w s = .next (t.respond .ok) := by
  obtain ⟨rd, x, -, -, he⟩ | ⟨slot, n, -, -, he⟩ := exec_cases i s <;>
    exact ⟨_, he, by simp [hostCmd, h, he]⟩

/-- An illegal word takes IllegalCommand. -/
theorem hostCmd_illegal {w : CmdWord} {why : IllegalReason} (h : decode w = .illegal why) (s : State) :
    hostCmd w s = .next (s.raiseIllegal w) := by
  simp [hostCmd, h]

/-- What a host operation can do, all of it. -/
theorem hostOp_cases (o : HostOp) (s t : State) (h : hostOp o s = .next t) :
    (∃ x, o = .reset x ∧ t = s.hostReset) ∨
    (∃ w why, o = .cmd w ∧ decode w = .illegal why ∧ t = s.raiseIllegal w) ∨
    (∃ w i rd x, o = .cmd w ∧ decode w = .command i ∧ destReg i = some rd ∧ destSlot i = none ∧
      exec i s = .next (s.setReg rd x) ∧ t = (s.setReg rd x).respond .ok) ∨
    (∃ w i slot n, o = .cmd w ∧ decode w = .command i ∧ destReg i = none ∧ destSlot i = some slot ∧
      exec i s = .next (s.setSlot slot (bytes32 n)) ∧ t = (s.setSlot slot (bytes32 n)).respond .ok) ∨
    (∃ a b, o = .writeByte a b ∧ t = (s.setByte a b).respond .nothing) ∨
    (∃ a, o = .readByte a ∧ t = s.respond (.byte (s.byte a))) ∨
    (∃ r i v, o = .writeLimb r i v ∧ t = (s.setReg r (setLimb (s.reg r) i v)).respond .nothing) ∨
    (∃ r i, o = .readLimb r i ∧ t = s.respond (.limb (limb (s.reg r) i))) ∨
    ∃ n, o = .readStatus n ∧ t = s.respond (.status (s.statusReg n)) := by
  cases o with
  | reset x => simp only [hostOp, Host.Outcome.next.injEq] at h; simp [h]
  | writeByte a b => simp only [hostOp, Host.Outcome.next.injEq] at h; simp [h]
  | readByte a => simp only [hostOp, Host.Outcome.next.injEq] at h; simp [h]
  | writeLimb r i v => simp only [hostOp, Host.Outcome.next.injEq] at h; simp [h]
  | readLimb r i => simp only [hostOp, Host.Outcome.next.injEq] at h; simp [h]
  | readStatus n => simp only [hostOp, Host.Outcome.next.injEq] at h; simp [h]
  | cmd w =>
    simp only [hostOp] at h
    cases hd : decode w with
    | illegal why =>
      rw [hostCmd_illegal hd] at h
      simp only [Host.Outcome.next.injEq] at h
      exact .inr (.inl ⟨w, why, rfl, hd, h.symm⟩)
    | command i =>
      obtain ⟨u, hu, hc⟩ := hostCmd_command hd s
      rw [hc] at h
      simp only [Host.Outcome.next.injEq] at h
      obtain ⟨rd, x, h1, h2, he⟩ | ⟨slot, n, h1, h2, he⟩ := exec_cases i s
      · rw [he] at hu
        simp only [Host.Outcome.next.injEq] at hu
        exact .inr (.inr (.inl ⟨w, i, rd, x, rfl, hd, h1, h2, he, by rw [← h, ← hu]⟩))
      · rw [he] at hu
        simp only [Host.Outcome.next.injEq] at hu
        exact .inr (.inr (.inr (.inl ⟨w, i, slot, n, rfl, hd, h1, h2, he, by rw [← h, ← hu]⟩)))

/-- A step with nothing pending leaves the state as it is. -/
theorem step_idle {s : State} (h : s.pending = []) : step s = .next s := by
  simp [step, stepPending, h]

/-- A step with something pending applies the first of it. -/
theorem step_cons {s : State} {o : HostOp} {rest : List HostOp} (h : s.pending = o :: rest) :
    step s = hostOp o { s with pending := rest } := by
  simp [step, stepPending, h]

/-- A step takes the first pending operation off the list. -/
theorem step_pending {s t : State} (h : step s = .next t) : t.pending = s.pending.tail := by
  cases hp : s.pending with
  | nil => rw [step_idle hp] at h; cases h; simp [hp]
  | cons o rest =>
    rw [step_cons hp] at h
    rcases hostOp_cases _ _ _ h with ⟨x, rfl, rfl⟩ | ⟨w, why, rfl, hd, rfl⟩ | ⟨w, i, rd, x, rfl, hd, h1, h2, he, rfl⟩ |
      ⟨w, i, k, n, rfl, hd, h1, h2, he, rfl⟩ | ⟨a, b, rfl, rfl⟩ | ⟨a, rfl, rfl⟩ | ⟨r, i, v, rfl, rfl⟩ |
      ⟨r, i, rfl, rfl⟩ | ⟨n, rfl, rfl⟩ <;> rfl

/-- A run of no step ends where it starts. -/
theorem run_zero {s t : State} (h : Host.Core.run core 0 s = .next t) : t = s := by cases h; rfl

/-- A run of `k + 1` steps is a step and a run of `k` steps. -/
theorem run_succ {k : Nat} {s u : State} (h : Host.Core.run core (k + 1) s = .next u) :
    ∃ t : State, step s = .next t ∧ Host.Core.run core k t = .next u := by
  cases hs : step s with
  | next t =>
    have hc : core.step s = .next t := hs
    simp only [Host.Core.run, hc] at h
    exact ⟨t, rfl, h⟩
  | fault f => exact nomatch f
  | refused r =>
    have hc : core.step s = .refused r := hs
    simp [Host.Core.run, hc] at h

/-- A run that begins with a step to `t` goes on from `t`. -/
theorem run_cons {k : Nat} {s t : State} (h : step s = .next t) :
    Host.Core.run core (k + 1) s = Host.Core.run core k t := by
  have h' : core.step s = .next t := h
  simp [Host.Core.run, h']

/-- The invariant speaks of three fields only. -/
theorem stateInv_congr {s t : State} (h : StateInv s) (h1 : t.buf = s.buf) (h2 : t.err = s.err)
    (h3 : t.errcmd = s.errcmd) : StateInv t := by
  unfold StateInv
  rw [h1, h2, h3]
  exact h

end Sys2Proof.Machine
end

