-- ==== Sys2Proof/Laws/PerInstr.lean ====
section
/-! SUPPORT. One fact per command about its encoding: the fields the encoder gives it pass the check of R65, and the
decoder reads the command back from them. -/

namespace Sys2Proof.Laws.EncodedFields

/-- The encoder's fields of a command are well formed and are read back as that command. -/
def Statement (i : Instr) : Prop :=
  (encodeFields i).wellFormed = true ∧ decodeFields (encodeFields i) = .command i

theorem add (rd rs1 rs2 : Reg) : Statement (.add rd rs1 rs2) := ⟨rfl, rfl⟩
theorem sub (rd rs1 rs2 : Reg) : Statement (.sub rd rs1 rs2) := ⟨rfl, rfl⟩
theorem neg (rd rs1 : Reg) : Statement (.neg rd rs1) := ⟨rfl, rfl⟩
theorem mul (rd rs1 rs2 : Reg) : Statement (.mul rd rs1 rs2) := ⟨rfl, rfl⟩
theorem sqr (rd rs1 : Reg) : Statement (.sqr rd rs1) := ⟨rfl, rfl⟩
theorem sqr2 (rd rs1 : Reg) : Statement (.sqr2 rd rs1) := ⟨rfl, rfl⟩
theorem cmov (rd rs1 : Reg) (flag : BitVec 1) : Statement (.cmov rd rs1 flag) := ⟨rfl, rfl⟩
theorem fromb (rd : Reg) (slot : Slot) : Statement (.fromb rd slot) := ⟨rfl, rfl⟩
theorem tob (slot : Slot) (rs1 : Reg) : Statement (.tob slot rs1) := ⟨rfl, rfl⟩

end Sys2Proof.Laws.EncodedFields
end

