-- ==== Sys2Proof/Tests/Slice0.lean ====
section
/-! SUPPORT. The model's own tests. Expected results come from the spec: its encoding tables (`30_encoding.md` R63,
R64, R66) and its vectors (`95_test_vectors.md`). After them, for every statement with hypotheses, a witness that
meets all of them together. -/

namespace Sys2Proof.Tests

open Sys2Proof.Machine

/-- The field element of five limbs below `2^51 − 1` each: the largest `LimbReduced` one. -/
def max51 : FieldElement := ofLimbs fun _ => 0x7FFFFFFFFFFFF
/-- All limbs `2^54 − 1`. -/
def max54 : FieldElement := ofLimbs fun _ => 0x3FFFFFFFFFFFFF
/-- All limbs `2^64 − 2^13`, the edge of the carry pass's condition (V-CP-6). -/
def edge : FieldElement := ofLimbs fun _ => 0xFFFFFFFFFFFFE000
/-- All limbs `2^64 − 1`. -/
def ones : FieldElement := ofLimbs fun _ => 0xFFFFFFFFFFFFFFFF
/-- The largest `Tight` field element. -/
def maxTight : FieldElement := ⟨0x800000003FFFF, 0x7FFFFFFFFFFFF, 0x7FFFFFFFFFFFF, 0x7FFFFFFFFFFFF, 0x7FFFFFFFFFFFF⟩
/-- The limbs of `p`. -/
def limbsOfP : FieldElement := ⟨0x7FFFFFFFFFFED, 0x7FFFFFFFFFFFF, 0x7FFFFFFFFFFFF, 0x7FFFFFFFFFFFF, 0x7FFFFFFFFFFFF⟩
/-- The vectors' `x` and `y`. -/
def fx : FieldElement := ⟨0x1BC701E7EA419, 0x790149BEB4A39, 0x41B40EFCE2CBF, 0x7C852D763CBC1, 0x79FA4924DC28F⟩
def fy : FieldElement := ⟨0x5ACCB1A466884, 0x472525A45C4A, 0x7749477944852, 0x374CF8CCA824C, 0x35D6B5F18E7AA⟩

/-- A state whose registers all hold `x`, its buffer unwritten, its status clear, with these operations pending. -/
def blank (x : FieldElement) (os : List HostOp) : State :=
  { State.reset with regs := Vector.replicate 16 x, pending := os }

/-- The same with `ERR = 1` and `ERRCMD = 0x01312001`. -/
def reported (os : List HostOp) : State := { blank fx os with err := true, errcmd := 0x01312001 }

/-- The zero state with `f1 = a`, `f2 = b` and one command word presented. -/
def two (a b : FieldElement) (w : CmdWord) : State := ((blank ⟨0, 0, 0, 0, 0⟩ [.cmd w]).setReg 1 a).setReg 2 b

/-- The zero state with these bytes in slot `k`. -/
def slotted (k : Slot) (bs : List Byte) (os : List HostOp) : State := (blank ⟨0, 0, 0, 0, 0⟩ os).setSlot k bs

/-- A value of the next state of a step. -/
def after {α : Type} (s : State) (f : State → α) : Option α :=
  match step s with
  | .next t => some (f t)
  | .fault _ => none
  | .refused _ => none

/-! ## Well-formedness of fields (R65): one ill-formed term per check -/

theorem test_wf_op_zero : Fields.wellFormed ⟨0x00, 0, 0, 0, 0, 0, 0⟩ = false := by decide
theorem test_wf_op_unassigned : Fields.wellFormed ⟨0x0A, 0, 0, 0, 0, 0, 0⟩ = false := by decide
theorem test_wf_zero_field : Fields.wellFormed ⟨0x07, 1, 3, 0, 0, 1, 0⟩ = false := by decide
theorem test_wf_add_slot : Fields.wellFormed ⟨0x01, 3, 1, 2, 1, 0, 0⟩ = false := by decide
theorem test_wf_mul_flag : Fields.wellFormed ⟨0x04, 5, 3, 4, 0, 0, 1⟩ = false := by decide
theorem test_wf_neg_rs2 : Fields.wellFormed ⟨0x03, 3, 2, 1, 0, 0, 0⟩ = false := by decide
theorem test_wf_sqr_slot : Fields.wellFormed ⟨0x05, 6, 1, 0, 1, 0, 0⟩ = false := by decide
theorem test_wf_sqr2_flag : Fields.wellFormed ⟨0x06, 5, 0, 0, 0, 0, 1⟩ = false := by decide
theorem test_wf_cmov_rs2 : Fields.wellFormed ⟨0x07, 1, 3, 1, 0, 0, 0⟩ = false := by decide
theorem test_wf_cmov_slot : Fields.wellFormed ⟨0x07, 1, 3, 0, 1, 0, 0⟩ = false := by decide
theorem test_wf_fromb_rs1 : Fields.wellFormed ⟨0x08, 1, 1, 0, 0, 0, 0⟩ = false := by decide
theorem test_wf_fromb_rs2 : Fields.wellFormed ⟨0x08, 1, 0, 1, 0, 0, 0⟩ = false := by decide
theorem test_wf_fromb_flag : Fields.wellFormed ⟨0x08, 1, 0, 0, 0, 0, 1⟩ = false := by decide
theorem test_wf_tob_rd : Fields.wellFormed ⟨0x09, 1, 5, 0, 2, 0, 0⟩ = false := by decide
theorem test_wf_tob_rs2 : Fields.wellFormed ⟨0x09, 0, 5, 1, 2, 0, 0⟩ = false := by decide
theorem test_wf_tob_flag : Fields.wellFormed ⟨0x09, 0, 5, 0, 2, 0, 1⟩ = false := by decide
theorem test_wf_accepts : Fields.wellFormed ⟨0x07, 1, 3, 0, 0, 0, 1⟩ = true := by decide

/-! ## Decoding: words written out field by field from R60 and R63 -/

theorem test_decode_add : decode (0b00000001#8 ++ 0b0011#4 ++ 0b0001#4 ++ 0b0010#4 ++ 0#12) = .command (.add 3 1 2) := by
  decide
theorem test_decode_sub : decode (0b00000010#8 ++ 0b1111#4 ++ 0b1110#4 ++ 0b1101#4 ++ 0#12) = .command (.sub 15 14 13) := by
  decide
theorem test_decode_neg : decode (0b00000011#8 ++ 0b0011#4 ++ 0b0010#4 ++ 0#16) = .command (.neg 3 2) := by decide
theorem test_decode_mul : decode (0b00000100#8 ++ 0b0101#4 ++ 0b0011#4 ++ 0b0100#4 ++ 0#12) = .command (.mul 5 3 4) := by
  decide
theorem test_decode_sqr : decode (0b00000101#8 ++ 0b0110#4 ++ 0b0001#4 ++ 0#16) = .command (.sqr 6 1) := by decide
theorem test_decode_sqr2 : decode (0b00000110#8 ++ 0b0101#4 ++ 0b0000#4 ++ 0#16) = .command (.sqr2 5 0) := by decide
theorem test_decode_cmov : decode (0b00000111#8 ++ 0b0001#4 ++ 0b0011#4 ++ 0#15 ++ 1#1) = .command (.cmov 1 3 1) := by
  decide
theorem test_decode_fromb : decode (0b00001000#8 ++ 0b1111#4 ++ 0#8 ++ 0b1110#4 ++ 0#8) = .command (.fromb 15 14) := by
  decide
theorem test_decode_tob : decode (0b00001001#8 ++ 0#4 ++ 0b0101#4 ++ 0#4 ++ 0b0010#4 ++ 0#8) = .command (.tob 2 5) := by
  decide
/-- V-ENC-3, 12, 17: the edges of the operand ranges. -/
theorem test_decode_edges : decode 0x01000000 = .command (.add 0 0 0) ∧ decode 0x07000000 = .command (.cmov 0 0 0) ∧
    decode 0x090F0F00 = .command (.tob 15 15) := by decide
/-- V-ILL-1 to V-ILL-4 and V-ILL-25. -/
theorem test_decode_unassigned : decode 0x00000000 = .illegal .unassignedOpcode ∧
    decode 0x0A000000 = .illegal .unassignedOpcode ∧ decode 0xFF000000 = .illegal .unassignedOpcode ∧
    decode 0xFFFFFFFF = .illegal .unassignedOpcode ∧ decode 0x80000000 = .illegal .unassignedOpcode := by decide
/-- V-ILL-5, 7, 8, 10, 12, 15, 17. -/
theorem test_decode_nonzero_field : decode 0x01312001 = .illegal .unusedFieldNonzero ∧
    decode 0x01312080 = .illegal .unusedFieldNonzero ∧ decode 0x02FED002 = .illegal .unusedFieldNonzero ∧
    decode 0x03321000 = .illegal .unusedFieldNonzero ∧ decode 0x05611000 = .illegal .unusedFieldNonzero ∧
    decode 0x07130003 = .illegal .unusedFieldNonzero ∧ decode 0x07130100 = .illegal .unusedFieldNonzero := by decide
theorem test_table_word : decodeTableWord 32 0x04534000 = some (.mul 5 3 4) ∧ decodeTableWord 32 0x04534001 = none := by
  decide
/-- A command of the table runs as the first one after reset, whatever the registers hold. -/
theorem test_runs_first : after (State.reset.withFetchWord 32 0x09050200) (·.reply) = some .ok := by decide

/-! ## Commands, one step each: the vectors of `95_test_vectors.md` -/

/-- V-ADD-6: each limb modulo 2^64 on its own. -/
theorem test_add_wraps_per_limb :
    after (two ⟨0xFFFFFFFFFFFFFFFE, 5, 0xFFFFFFFFFFFFFFFF, 0, 0x8000000000000000⟩
      ⟨1, 0xFFFFFFFFFFFFFFFF, 1, 0, 0x8000000000000000⟩ 0x01312000) (·.reg 3) =
    some ⟨0xFFFFFFFFFFFFFFFF, 4, 0, 0, 0⟩ := by decide
/-- V-ADD-2, into a source: limb 0 becomes 2^51, no carry. -/
theorem test_add_no_carry_aliased :
    after (two max51 ⟨1, 0, 0, 0, 0⟩ 0x01112000) (·.reg 1) =
    some ⟨0x8000000000000, 0x7FFFFFFFFFFFF, 0x7FFFFFFFFFFFF, 0x7FFFFFFFFFFFF, 0x7FFFFFFFFFFFF⟩ := by decide
/-- V-SUB-7: x − y. -/
theorem test_sub_order : after (two fx fy 0x02412000) (·.reg 4) =
    some ⟨0xC0FA504383B6F, 0x1748EF7646EDED, 0xCA6AC7839E46B, 0x1453834A994973, 0x1442393334DAE3⟩ := by decide
/-- V-SUB-6: the subtrahend at the edge of the carry pass. -/
theorem test_sub_carries_subtrahend : after (two ⟨1, 2, 3, 4, 5⟩ edge 0x02412000) (·.reg 4) =
    some ⟨0x7FFFFFFFDBFEE, 0x8000000000001, 0x8000000000002, 0x8000000000003, 0x8000000000004⟩ := by decide
/-- V-NEG-6: a loose operand. -/
theorem test_neg_loose : after (two ⟨0, 0, 0, 0, 0⟩ max54 0x03320000) (·.reg 3) =
    some ⟨0x7FFFFFFFFFF43, 0xFFFFFFFFFFFF8, 0xFFFFFFFFFFFF7, 0xFFFFFFFFFFFF7, 0xFFFFFFFFFFFF7⟩ := by decide
/-- V-NEG-1: zeros give the constants. -/
theorem test_neg_zero : after (two ones ⟨0, 0, 0, 0, 0⟩ 0x03320000) (·.reg 3) =
    some ⟨0xFFFFFFFFFFFDA, 0xFFFFFFFFFFFFE, 0xFFFFFFFFFFFFE, 0xFFFFFFFFFFFFE, 0xFFFFFFFFFFFFE⟩ := by decide
/-- V-MUL-6: x·y. -/
theorem test_mul_xy : after (two fx fy 0x04512000) (·.reg 5) =
    some ⟨0x7501D0B0BF3B6, 0x7E629DBDC8AA2, 0x7370CD52048CB, 0x500394562DAFE, 0x561D875C1D233⟩ := by decide
/-- V-MUL-8: outside the precondition the fold wraps. -/
theorem test_mul_wraps : after (two (ofLimbs fun _ => 0x7FFFFFFFFFFFFF) (ofLimbs fun _ => 0x7FFFFFFFFFFFFF) 0x04512000)
    (·.reg 5) = some ⟨0x800000001A96D, 0x159A, 0x5C9, 0x15F7, 0x625⟩ := by decide
/-- V-SQR-3: x². -/
theorem test_sqr_x : after (two fx fy 0x05610000) (·.reg 6) =
    some ⟨0x64E96E3B61FA5, 0x52D39DDC0DB57, 0x680B91D10073D, 0x6EE4FC2400DC1, 0x35A5E2F01E957⟩ := by decide
/-- V-SQR-6: where SQR and MUL differ. -/
theorem test_sqr_wraps : after (two ⟨0, 0x800000000000000, 0, 0, 1⟩ fy 0x05610000) (·.reg 6) =
    some ⟨0, 0x600, 0, 0x13, 0⟩ := by decide
/-- V-SQR2-3: the largest legal operand. -/
theorem test_sqr2_max : after (two max54 fy 0x06510000) (·.reg 5) =
    some ⟨0x1000000000CF3A, 0x2654, 0x1F72, 0x188E, 0x11AA⟩ := by decide
/-- V-CMOV-2: all 64 bits of each limb. -/
theorem test_cmov_one : after (two ⟨0x3FFFFFFFFFFFFF, 1, 2, 3, 0x8000000000000000⟩ ⟨5, 6, 7, 8, 9⟩ 0x07120001) (·.reg 1) =
    some ⟨5, 6, 7, 8, 9⟩ := by decide
/-- V-CMOV-5. -/
theorem test_cmov_zero : after (two ones ⟨0, 0, 0, 0, 0⟩ 0x07120000) (·.reg 1) = some ones := by decide
/-- V-FROMB-1: bytes 00 01 02 .. 1f, in slot 15. -/
theorem test_fromb_windows : after (slotted 15 ((List.range 32).map (BitVec.ofNat 8)) [.cmd 0x08F00F00]) (·.reg 15) =
    some ⟨0x6050403020100, 0x18161412100E0, 0x44844403C3834, 0x48C0B8B0A8A09, 0x1F1E1D1C1B1A1⟩ := by decide
/-- V-FROMB-11: bit 255 alone is ignored. -/
theorem test_fromb_top_bit : after (slotted 0 (List.replicate 31 0 ++ [0x80]) [.cmd 0x08100000]) (·.reg 1) =
    some ⟨0, 0, 0, 0, 0⟩ := by decide
/-- V-TOB-10: p encodes to 0. -/
theorem test_tob_p : after (two limbsOfP fy 0x09010200) (·.slotBytes 2) = some (List.replicate 32 0) := by decide
/-- V-TOB-1: a loose operand, byte by byte. -/
theorem test_tob_loose : after (two max54 fy 0x09010200) (·.slotBytes 2) =
    some [0x97, 0, 0, 0, 0, 0, 0x38, 0, 0, 0, 0, 0, 0xc0, 0x01, 0, 0, 0, 0, 0, 0x0e, 0, 0, 0, 0, 0, 0x70, 0, 0, 0, 0, 0, 0]
    := by decide

/-! ## The exception and the host's accesses (`95_test_vectors.md` 2.10, 2.11) -/

theorem test_illegal_first : after (blank fx [.cmd 0x01312001]) (fun t => (t.reply, t.statusWord, t.errcmd, t.reg 3)) =
    some (.err, 1, 0x01312001, fx) := by decide
theorem test_illegal_second : after (reported [.cmd 0x0A000000]) (fun t => (t.reply, t.statusWord, t.errcmd)) =
    some (.err, 1, 0x01312001) := by decide
theorem test_legal_while_err : after (reported [.cmd 0x01312000]) (fun t => (t.reply, t.statusWord, t.reg 3)) =
    some (.ok, 1, addLimbs fx fx) := by decide
theorem test_reset_clears : after (reported [.reset none]) (fun t => (t.reply, t.statusWord, t.errcmd)) =
    some (.nothing, 0, 0) := by decide
theorem test_read_errcmd : after (reported [.readStatus 1]) (·.reply) = some (.status 0x01312001) := by decide
theorem test_write_limb : after (blank fx [.writeLimb 3 2 0xFFFFFFFFFFFFFFFF]) (·.reg 3) =
    some { fx with v2 := 0xFFFFFFFFFFFFFFFF } := by decide
/-- Address 95 is byte 31 of slot 2. -/
theorem test_write_byte : after (blank fx [.writeByte 95 0xAB]) (fun t => t.byte (slotAddr 2 31)) = some 0xAB := by decide
theorem test_read_limb : after (blank fx [.readLimb 15 4]) (·.reply) = some (.limb fx.v4) := by decide
theorem test_read_byte : after (slotted 15 (List.replicate 32 0x5A) [.readByte 511]) (·.reply) = some (.byte 0x5A) := by
  decide

/-! ## Witnesses: the hypotheses of each statement can be met -/

theorem witness_EncodeIsTheInverseOfDecode : ∃ w i, decode w = .command i := ⟨0x090F0F00, .tob 15 15, by decide⟩
theorem witness_UnusedFieldsMustBeZero :
    (∃ w w' i, decode w = .command i ∧ decode w' = .command i) ∧
    (∃ w : CmdWord, w.toNat / 2 ^ 24 = 0) ∧ (∃ w : CmdWord, 0x0A ≤ w.toNat / 2 ^ 24) ∧
    (∃ w : CmdWord, w.toNat / 2 % 2 ^ 7 ≠ 0) ∧ ∃ w : CmdWord, w.toNat % 2 ≠ 0 ∧ w.toNat / 2 ^ 24 ≠ 0x07 :=
  ⟨⟨0x01312000, 0x01312000, .add 3 1 2, by decide⟩, ⟨0x00FFFFFF, by decide⟩, ⟨0x0A000000, by decide⟩,
    ⟨0x01312080, by decide⟩, 0x01312001, by decide⟩
theorem witness_StepRunsThePresentedCommand :
    (∃ (s : State) (w : _) (rest : _) (i : _) (t : _), s.pending = .cmd w :: rest ∧ decode w = .command i ∧
      exec i { s with pending := rest } = .next t) ∧ (∃ s : State, s.pending = []) ∧
    ∃ (s : State) (o : HostOp) (rest : List HostOp), s.pending = o :: rest :=
  ⟨⟨blank fx [.cmd 0x01312000], 0x01312000, [], .add 3 1 2, _, rfl, by decide, rfl⟩, ⟨State.reset, rfl⟩,
    blank fx [.reset none], _, _, rfl⟩
theorem witness_IllegalWordRaisesIllegalCommand :
    (∃ (s : State) (w : _) (rest : _), s.pending = .cmd w :: rest ∧ IllegalWord w) ∧
    (∃ (s : State) (w : _) (rest : _) (i : _), s.pending = .cmd w :: rest ∧ decode w = .command i) ∧
    ∃ (s : State) (o : _) (rest : _) (t : _), s.pending = o :: rest ∧ step s = .next t ∧ t.reply = .err :=
  ⟨⟨blank fx [.cmd 0], 0, [], rfl, _, rfl⟩, ⟨blank fx [.cmd 0x07000000], _, [], _, rfl, rfl⟩,
    blank fx [.cmd 0], _, [], _, rfl, rfl, rfl⟩
theorem witness_StatusErrIsStickyUntilReset :
    (∃ (s : State) (x : _) (rest : _), s.pending = .reset x :: rest) ∧ (∃ (s : State) (w : _) (rest : _), s.pending = .cmd w :: rest ∧ IllegalWord w) ∧
    (∃ s t, s.err = true ∧ (∀ x rest, s.pending ≠ .reset x :: rest) ∧ step s = .next t) ∧
    ∃ (s : State) (rest : _), s.pending = .readStatus 0 :: rest :=
  ⟨⟨blank fx [.reset none], _, _, rfl⟩, ⟨blank fx [.cmd 0], 0, [], rfl, _, rfl⟩,
    ⟨reported [.cmd 0], _, rfl, by simp [reported, blank], rfl⟩, blank fx [.readStatus 0], _, rfl⟩
theorem witness_ErrcmdKeepsTheFirstIllegalWord :
    (∃ (s : State) (w : _) (rest : _), s.pending = .cmd w :: rest ∧ IllegalWord w ∧ s.err = false ∧ w = 0) ∧
    ∃ s rest, StateInv s ∧ s.err = false ∧ s.pending = .readStatus 1 :: rest :=
  ⟨⟨blank fx [.cmd 0], 0, [], rfl, ⟨_, rfl⟩, rfl, rfl⟩, blank fx [.readStatus 1], [], ⟨rfl, fun _ => rfl⟩, rfl, rfl⟩
theorem witness_LegalCommandsReportNothing : ∃ (s : State) (w : _) (rest : _) (i : _), s.pending = .cmd w :: rest ∧ decode w = .command i :=
  ⟨blank ones [.cmd 0x04111000], _, [], _, rfl, rfl⟩
theorem witness_ErrStaysAndCommandsStillExecute :
    (∃ (s : State) (w : _) (rest : _), s.err = true ∧ s.pending = .cmd w :: rest ∧ IllegalWord w) ∧
    (∃ (s : State) (w : _) (rest : _) (i : _), s.err = true ∧ s.pending = .cmd w :: rest ∧ decode w = .command i) ∧
    ∃ i s t, s.err = true ∧ exec i s = .next t :=
  ⟨⟨reported [.cmd 0], 0, [], rfl, rfl, _, rfl⟩, ⟨reported [.cmd 0x01312000], _, [], _, rfl, rfl, rfl⟩,
    .tob 0 1, reported [], _, rfl, rfl⟩
/-- With every operation pending in turn, an illegal word among them. -/
theorem witness_EveryStepKeepsTheInvariant : ∀ o ∈ [HostOp.cmd 0, .cmd 0x09050F00, .writeByte 0 1, .writeByte 511 1,
    .reset none, .readByte 0], ∃ (s : State) (t : _), s.pending = [o] ∧ StateInv s ∧ step s = .next t := by
  intro o ho
  have h : StateInv (blank fx [o]) := ⟨rfl, fun _ => rfl⟩
  simp only [List.mem_cons, List.not_mem_nil, or_false] at ho
  rcases ho with rfl | rfl | rfl | rfl | rfl | rfl <;> exact ⟨_, _, rfl, h, rfl⟩
theorem witness_FaultedRunPresentedAnIllegalWord :
    ∃ (k : Nat) (s t : State), s.err = false ∧ Host.Core.run core k s = .next t ∧ t.err = true :=
  ⟨2, blank fx [.readByte 0, .cmd 0], _, rfl, rfl, rfl⟩
theorem witness_HostResetClearsStatus :
    (∃ (s : State) (x : _) (rest : _), s.pending = .reset x :: rest) ∧ ∃ s t, s.err = true ∧ step s = .next t ∧ t.err = false :=
  ⟨⟨reported [.reset none], _, _, rfl⟩, reported [.reset none], _, rfl, rfl, rfl⟩
theorem witness_ResetAbandonsTheRunningCommand : ∃ (s : State) (w : _) (rest : _), s.pending = .reset (some w) :: rest :=
  ⟨reported [.reset (some 0x01312000)], _, _, rfl⟩
/-- The lowest and the highest byte, limb and status register. -/
theorem witness_HostAccessesReadAndWriteOneDatum : ∀ o ∈ [HostOp.writeByte 0 1, .writeByte 511 1, .readByte 0,
    .readByte 511, .writeLimb 0 0 1, .writeLimb 15 4 1, .readLimb 0 0, .readLimb 15 4, .readStatus 0, .readStatus 1],
    ∃ (s : State) (rest : List HostOp), s.pending = o :: rest := fun o _ => ⟨blank fx [o], [], rfl⟩
theorem witness_ReadsHaveNoSideEffect :
    (∃ (s : State) (o : HostOp) (rest : _), (∃ a, o = HostOp.readByte a) ∧ s.pending = o :: o :: rest) ∧
    (∃ (s : State) (o : HostOp) (rest : _), (∃ r i, o = HostOp.readLimb r i) ∧ s.pending = o :: o :: rest) ∧
    (∃ (s : State) (o : HostOp) (rest : _), (∃ n, o = HostOp.readStatus n) ∧ s.pending = o :: o :: rest) ∧
    (∃ s t, hostOp (.writeByte 511 0xAB) s = .next t) ∧ ∃ s t, hostOp (.writeLimb 15 4 1) s = .next t :=
  ⟨⟨blank fx [.readByte 511, .readByte 511], _, [], ⟨_, rfl⟩, rfl⟩,
    ⟨blank fx [.readLimb 15 4, .readLimb 15 4], _, [], ⟨_, _, rfl⟩, rfl⟩,
    ⟨reported [.readStatus 1, .readStatus 1], _, [], ⟨_, rfl⟩, rfl⟩, ⟨blank fx [], _, rfl⟩, blank fx [], _, rfl⟩
/-- A run that writes a neighbouring register and a neighbouring byte. -/
theorem witness_ValuesAreStableUntilWritten :
    ∃ (k : Nat) (s t : State), Host.Core.run core k s = .next t ∧ k = 2 ∧
      (∀ o ∈ s.pending.take k, writesReg 2 o = false) ∧ ∀ o ∈ s.pending.take k, writesByte 96 o = false :=
  ⟨2, blank fx [.cmd 0x01312000, .writeByte 95 1], _, rfl, rfl, by decide, by decide⟩
theorem witness_SlotsTileTheBuffer :
    (∃ (k k' : Slot) (j j' : Fin 32), slotAddr k j = slotAddr k' j') ∧
    ∃ s t slot rs1 k, exec (.tob slot rs1) s = .next t ∧ k ≠ slot :=
  ⟨⟨15, 15, 31, 31, rfl⟩, blank fx [], _, 14, 1, 15, rfl, by decide⟩
theorem witness_CommandsTouchOnlyTheirArguments :
    (∃ i s t, exec i s = .next t) ∧
    (∃ i s₁ s₂ t₁ t₂, (∀ r ∈ sourceRegs i, s₁.reg r = s₂.reg r) ∧ s₁.reg 3 ≠ s₂.reg 3 ∧
      exec i s₁ = .next t₁ ∧ exec i s₂ = .next t₂) ∧
    ∃ i s₁ s₂ t₁ t₂ k, sourceSlot i = some k ∧ (∀ j, s₁.byte (slotAddr k j) = s₂.byte (slotAddr k j)) ∧
      exec i s₁ = .next t₁ ∧ exec i s₂ = .next t₂ :=
  ⟨⟨.sqr 1 2, blank fx [], _, rfl⟩,
    ⟨.add 3 1 2, blank fx [], (blank fx []).setReg 3 fy, _, _, by decide, by decide, rfl, rfl⟩,
    .fromb 3 1, blank fx [], blank fy [], _, _, 1, rfl, fun _ => rfl, rfl, rfl⟩
theorem witness_AliasedDestinationsGetTheSameResult :
    (∃ s t, Bnd (s.reg 1) 54 ∧ exec (.mul 1 1 1) s = .next t) ∧
    (∃ s t, Bnd (s.reg 1) 54 ∧ exec (.sub 1 1 1) s = .next t) ∧
    (∃ s t, (∀ k, (limb (s.reg 1) k).toNat < 2 ^ 63) ∧ exec (.add 1 1 1) s = .next t) ∧
    ∃ s t t', exec (.add 1 1 2) s = .next t ∧ exec (.add 3 1 2) s = .next t' :=
  ⟨⟨blank max54 [], _, by decide, rfl⟩, ⟨blank max54 [], _, by decide, rfl⟩,
    ⟨blank (ofLimbs fun _ => 0x7FFFFFFFFFFFFFFF) [], _, by decide, rfl⟩, blank fx [], _, _, rfl, rfl⟩
theorem witness_CarryPassKeepsTheResidue : CarryOk edge ∧ topCarry edge = 2 ^ 13 - 1 ∧ Bnd max51 51 ∧ Bnd max54 54 ∧
    topCarry max54 = 8 := by decide
/-- Accumulator 0 at the largest carry the third condition allows; V-MUL-7's accumulators. -/
theorem witness_Reduce128KeepsTheResidue : ∀ A ∈ [Accs.mk ((2 ^ 64 - 2 ^ 13) * 2 ^ 51) 0 0 0 0, mulAccs max54 max54],
    (∀ k, (acc A k).toNat < 2 ^ 115) ∧ (acc A 0).toNat % 2 ^ 51 + 19 * ((acc A 4).toNat / 2 ^ 51) < 2 ^ 64 ∧
    ∀ k, k ≠ 0 → (acc A k).toNat % 2 ^ 51 + (acc A (k - 1)).toNat / 2 ^ 51 ≤ 2 ^ 64 - 2 ^ 13 := by decide
theorem witness_AddSumsLimbwise : (∀ k, (limb ones k).toNat + (limb ⟨0, 0, 0, 0, 0⟩ k).toNat < 2 ^ 64) ∧
    (∀ k, (limb max54 k).toNat + (limb max51 k).toNat < 2 ^ 64) ∧ Bnd max54 54 ∧ Bnd max51 51 := by decide
theorem witness_SubSubtractsModP : CarryOk edge ∧
    (∀ k, (limb (ofLimbs fun _ => 0xFFEFFFFFFFFFFFFF) k).toNat < 2 ^ 64 - 2 ^ 52) ∧
    (∀ k, (limb max54 k).toNat < 2 ^ 64 - 2 ^ 52) ∧ Bnd max54 54 ∧ Tight maxTight := by decide
theorem witness_SubtractionConstantsAreTwoP : CarryOk edge ∧ (4 : Fin 5) ≠ 0 := by decide
theorem witness_NegNegatesModP : CarryOk edge ∧ CarryOk ⟨0, 0, 0, 0, 0⟩ ∧ CarryOk limbsOfP := by decide
theorem witness_AdditiveLaws :
    (∃ d a s t u, d ≠ a ∧ CarryOk (s.reg a) ∧ (∀ k, (limb (s.reg a) k).toNat < 2 ^ 64 - 2 ^ 52) ∧
      exec (.neg d a) s = .next t ∧ exec (.add d a d) t = .next u) ∧
    ∃ d e a b c s t u t₁ t₂ t₃, d ≠ a ∧ d ≠ b ∧ d ≠ c ∧ e ≠ a ∧ e ≠ b ∧ e ≠ c ∧ d ≠ e ∧
      Bnd (s.reg a) 54 ∧ Bnd (s.reg b) 54 ∧ Bnd (s.reg c) 54 ∧
      (∀ k, (limb (s.reg b) k).toNat + (limb (s.reg c) k).toNat < 2 ^ 54) ∧
      exec (.add d b c) s = .next t ∧ exec (.mul d a d) t = .next u ∧
      exec (.mul d a b) s = .next t₁ ∧ exec (.mul e a c) t₁ = .next t₂ ∧ exec (.add d d e) t₂ = .next t₃ :=
  ⟨⟨3, 1, blank (ofLimbs fun _ => 0xFFEFFFFFFFFFFFFF) [], _, _, by decide, by decide, by decide, rfl, rfl⟩,
    3, 4, 0, 1, 2, blank max51 [], _, _, _, _, _, by decide, by decide, by decide, by decide, by decide, by decide,
    by decide, by decide, by decide, by decide, by decide, rfl, rfl, rfl, rfl, rfl⟩
theorem witness_MulMultipliesModP : Bnd max54 54 ∧ 54 + 54 ≤ 108 ∧ 54 ≤ 59 ∧
    Bnd (ofLimbs fun _ => 0x7FFFFFFFFFFFFFF) 59 ∧ Bnd (ofLimbs fun _ => 0x1FFFFFFFFFFFF) 49 ∧ 59 + 49 ≤ 108 ∧
    LimbReduced max51 ∧ (∃ s : State, s.reg 1 = ⟨0, 0, 0, 0, 0⟩) ∧
    (∃ s : State, s.reg 1 = ⟨1, 0, 0, 0, 0⟩ ∧ LimbReduced (s.reg 2)) ∧
    ∃ s : State, s.reg 1 = ofLimbs (fun _ => 0x7FFFFFFFFFFFFF) ∧ s.reg 2 = ofLimbs (fun _ => 0x7FFFFFFFFFFFFF) :=
  ⟨by decide, by decide, by decide, by decide, by decide, by decide, by decide, ⟨blank ⟨0, 0, 0, 0, 0⟩ [], by decide⟩,
    ⟨two ⟨1, 0, 0, 0, 0⟩ max51 0, by decide⟩, blank (ofLimbs fun _ => 0x7FFFFFFFFFFFFF) [], by decide⟩
/-- The distributive law's hypotheses are those of `AdditiveLaws`, whose witness serves for both. -/
theorem witness_MultiplicativeLaws :
    (∃ d a b c s t u t' u', d ≠ a ∧ d ≠ b ∧ d ≠ c ∧ Bnd (s.reg a) 54 ∧ Bnd (s.reg b) 54 ∧ Bnd (s.reg c) 54 ∧
      exec (.mul d b c) s = .next t ∧ exec (.mul d a d) t = .next u ∧
      exec (.mul d a b) s = .next t' ∧ exec (.mul d d c) t' = .next u') ∧
    ∃ d a one s t, Bnd (s.reg a) 54 ∧ s.reg one = ⟨1, 0, 0, 0, 0⟩ ∧ exec (.mul d a one) s = .next t :=
  ⟨⟨3, 0, 1, 2, blank max54 [], _, _, _, _, by decide, by decide, by decide, by decide, by decide, by decide, rfl, rfl,
    rfl, rfl⟩, 3, 1, 2, two max54 ⟨1, 0, 0, 0, 0⟩ 0, _, by decide, by decide, rfl⟩
theorem witness_SqrAgreesWithMul : ∃ s : State, Bnd (s.reg 1) 54 ∧ s.reg 2 = ⟨0, 0x800000000000000, 0, 0, 1⟩ :=
  ⟨two max54 ⟨0, 0x800000000000000, 0, 0, 1⟩ 0, by decide⟩
theorem witness_Sqr2DoublesTheSquare : ∃ s : State, Bnd (s.reg 1) 54 := ⟨blank max54 [], by decide⟩
theorem witness_CmovSelectsByFlag : (1 : BitVec 1).toNat = 1 ∧ (0 : BitVec 1).toNat = 0 ∧ (15 : Reg) = 15 ∧
    (15 : Reg) ≠ 0 := by decide
theorem witness_FrombNeverValidates :
    (∃ s : State, p ≤ le256 (s.slotBytes 0) % 2 ^ 255) ∧ (∃ s : State, le256 (s.slotBytes 0) = p) ∧
    ∃ s t t', (∀ j : Fin 32, j ≠ 31 → s.byte (slotAddr 0 j) = s.byte (slotAddr 1 j)) ∧
      s.byte (slotAddr 0 31) ≠ s.byte (slotAddr 1 31) ∧
      (s.byte (slotAddr 0 31)).toNat % 2 ^ 7 = (s.byte (slotAddr 1 31)).toNat % 2 ^ 7 ∧
      exec (.fromb 1 0) s = .next t ∧ exec (.fromb 1 1) s = .next t' :=
  ⟨⟨slotted 0 (bytes32 (2 ^ 255 - 1)) [], by decide⟩, ⟨slotted 0 (bytes32 p) [], by decide⟩,
    (slotted 0 (bytes32 (2 ^ 255 - 1)) []).setSlot 1 (bytes32 (2 ^ 256 - 1)), _, _, by decide, by decide, by decide,
    rfl, rfl⟩
theorem witness_TobWritesTheCanonicalEncoding : CarryOk edge ∧ CarryOk max54 ∧ ¬ CarryOk ones := by decide
theorem witness_TobPacksThirtyTwoBytes : ∃ s : State, CarryOk (s.reg 1) := ⟨blank edge [], by decide⟩
theorem witness_CodecRoundTrips : ∀ n ∈ [p - 1, p, p + 5, 2 ^ 255 - 1],
    ∃ s t u, le256 (s.slotBytes 0) = n ∧ exec (.fromb 1 0) s = .next t ∧ exec (.tob 1 1) t = .next u ∧
      CarryOk (t.reg 1) := by
  intro n hn
  have hl : le256 ((slotted 0 (bytes32 n) []).slotBytes 0) = n := by
    simp only [List.mem_cons, List.not_mem_nil, or_false] at hn
    rcases hn with rfl | rfl | rfl | rfl <;> decide
  refine ⟨slotted 0 (bytes32 n) [], _, _, hl, rfl, rfl, ?_⟩
  simp only [List.mem_cons, List.not_mem_nil, or_false] at hn
  rcases hn with rfl | rfl | rfl | rfl <;> decide
theorem witness_HostCanDetectNonCanonicalInput : ∃ s t u, (0 : Slot) ≠ 1 ∧ exec (.fromb 1 0) s = .next t ∧
    exec (.tob 1 1) t = .next u := ⟨slotted 0 (bytes32 p) [], _, _, by decide, rfl, rfl⟩
/-- Every command has a state within its precondition, each bound at its edge. -/
theorem witness_CommandsComputeInTheField :
    Precondition (.add 3 1 2) (two ones ⟨0, 0, 0, 0, 0⟩ 0) ∧
    Precondition (.sub 3 1 2) (two (ofLimbs fun _ => 0xFFEFFFFFFFFFFFFF) edge 0) ∧
    Precondition (.neg 3 2) (two ones edge 0) ∧ Precondition (.mul 3 1 2) (two max54 max54 0) ∧
    Precondition (.sqr 3 1) (two max54 ones 0) ∧ Precondition (.sqr2 3 1) (two max54 ones 0) ∧
    Precondition (.cmov 3 1 1) (two ones ones 0) ∧ Precondition (.fromb 3 15) (two ones ones 0) ∧
    Precondition (.tob 15 2) (two ones edge 0) := by
  simp only [Precondition]; decide
/-- A program of five commands whose bounds reach `2^54` exactly (P5 of the vectors: three doublings, then SQR). -/
theorem witness_GrowthAnalysisIsSound :
    let is : List Instr := [.fromb 1 0, .add 1 1 1, .add 1 1 1, .add 1 1 1, .sqr 2 1]
    let B : Bounds := fun _ _ => 2 ^ 64 - 1
    (blank ones (presented is)).pending = presented is ++ [] ∧ Within B (blank ones (presented is)) ∧
      growthChecked is B := by
  refine ⟨rfl, ?_, ?_⟩
  · intro r k
    exact Nat.le_sub_one_of_lt (BitVec.isLt _)
  · refine ⟨trivial, ?_, ?_, ?_, ?_, trivial⟩ <;> (simp only [boundsSuffice]; decide)
theorem witness_ReducedSumsStayMultiplicable :
    (∃ xs : List FieldElement, xs.length ≤ 7 ∧ (∀ x ∈ xs, Tight x) ∧ xs = List.replicate 7 maxTight) ∧
    (∃ xs : List FieldElement, xs.length ≤ 8 ∧ (∀ x ∈ xs, LimbReduced x) ∧ xs = List.replicate 8 max51) ∧
    Tight maxTight ∧ ∃ s : State, Bnd (s.reg 1) 54 ∧ s.reg 2 = ⟨1, 0, 0, 0, 0⟩ :=
  ⟨⟨List.replicate 7 maxTight, by decide, by decide, rfl⟩, ⟨List.replicate 8 max51, by decide, by decide, rfl⟩,
    by decide, two max54 ⟨1, 0, 0, 0, 0⟩ 0, by decide⟩

end Sys2Proof.Tests
end

section
/-! The status registers under a step (`10_state.md` R30, R31; `60_exceptions.md` R141, R148): what each step does to
`ERR` and `ERRCMD`, said once, and the two statements of the family that follow from it. -/

namespace Sys2Proof.Machine

/-! ## Single steps -/

theorem step_reset {s : State} {x : Option CmdWord} {rest : List HostOp} (h : s.pending = .reset x :: rest) :
    step s = .next (State.hostReset { s with pending := rest }) := step_cons h

theorem step_illegal {s : State} {w : CmdWord} {rest : List HostOp} (h : s.pending = .cmd w :: rest)
    (hw : IllegalWord w) : step s = .next (State.raiseIllegal { s with pending := rest } w) := by
  obtain ⟨why, hd⟩ := hw
  rw [step_cons h]
  exact hostCmd_illegal hd _

theorem step_readStatus {s : State} {n : Fin 2} {rest : List HostOp} (h : s.pending = .readStatus n :: rest) :
    step s = .next (State.respond { s with pending := rest } (.status (s.statusReg n))) := step_cons h

/-- Taking an operation off the list and answering the host leaves the block's own state as it is. -/
theorem respond_sameBlock (s : State) (rest : List HostOp) (y : Reply) :
    SameBlock s (State.respond { s with pending := rest } y) where
  regs _ := rfl
  bytes _ := rfl
  err := rfl
  errcmd := rfl

/-! ## The status after any step -/

/-- What a step can do to the status: a reset clears it, an illegal word reports itself (R141), and every other step
leaves `ERR` and `ERRCMD` as they are. -/
theorem step_status_cases {s t : State} (h : step s = .next t) :
    (∃ x rest, s.pending = .reset x :: rest ∧ t.err = false ∧ t.errcmd = 0) ∨
    (∃ w rest, s.pending = .cmd w :: rest ∧ IllegalWord w ∧ t.err = true ∧
      t.errcmd = if s.err then s.errcmd else w) ∨
    (t.err = s.err ∧ t.errcmd = s.errcmd) := by
  cases hp : s.pending with
  | nil =>
    rw [step_idle hp] at h
    cases h
    exact .inr (.inr ⟨rfl, rfl⟩)
  | cons o rest =>
    rw [step_cons hp] at h
    rcases hostOp_cases _ _ _ h with ⟨x, rfl, rfl⟩ | ⟨w, why, rfl, hd, rfl⟩ | ⟨w, i, rd, x, rfl, -, -, -, -, rfl⟩ |
      ⟨w, i, k, n, rfl, -, -, -, -, rfl⟩ | ⟨a, b, rfl, rfl⟩ | ⟨a, rfl, rfl⟩ | ⟨r, i, v, rfl, rfl⟩ |
      ⟨r, i, rfl, rfl⟩ | ⟨n, rfl, rfl⟩
    case inl => exact .inl ⟨x, rest, rfl, rfl, rfl⟩
    case inr.inl => exact .inr (.inl ⟨w, rest, rfl, ⟨why, hd⟩, rfl, rfl⟩)
    all_goals exact .inr (.inr ⟨by simp, by simp⟩)

/-- Once `ERR` is 1, every step but a reset keeps `ERR` and `ERRCMD`: a second illegal word too. -/
theorem step_keeps_reported_error {s t : State} (he : s.err = true) (hr : ∀ x rest, s.pending ≠ .reset x :: rest)
    (h : step s = .next t) : t.err = true ∧ t.errcmd = s.errcmd := by
  obtain ⟨x, rest, hp, -, -⟩ | ⟨w, rest, -, -, herr, hcmd⟩ | ⟨herr, hcmd⟩ := step_status_cases h
  · exact absurd hp (hr x rest)
  · exact ⟨herr, by rw [hcmd, if_pos he]⟩
  · exact ⟨herr.trans he, hcmd⟩

/-- The all-zero word is no command: opcode 0 is not assigned (R66). -/
theorem illegalWord_zero : IllegalWord 0 := ⟨_, rfl⟩

/-! ## The statements -/

/-- Settles O8: the single steps give the clauses on reset, rejection and read, `step_keeps_reported_error` that `ERR`
is sticky. -/
theorem statusErrIsStickyUntilReset : Obligations.StatusErrIsStickyUntilReset := by
  refine ⟨statusWord_toNat, rfl, ?reset, ?rejected, ?sticky, ?read⟩
  case reset => exact fun s x rest hp => ⟨_, step_reset hp, rfl⟩
  case rejected => exact fun s w rest hp hw => ⟨_, step_illegal hp hw, rfl⟩
  case sticky => exact fun s t he hr h => (step_keeps_reported_error he hr h).1
  case read => exact fun s rest hp => ⟨_, step_readStatus hp, rfl, respond_sameBlock s rest _⟩

/-- Settles O9: an illegal word met with `ERR = 0` is stored, `step_keeps_reported_error` keeps it, and the invariant
gives the 0 that is read while `ERR` is 0. -/
theorem errcmdKeepsTheFirstIllegalWord : Obligations.ErrcmdKeepsTheFirstIllegalWord := by
  refine ⟨rfl, ?reset, ?first, ?kept, ?read, illegalWord_zero⟩
  case reset => exact fun s x rest hp => ⟨_, step_reset hp, rfl⟩
  case first =>
    intro s w rest hp hw he
    have hcmd : (State.raiseIllegal { s with pending := rest } w).errcmd = w := by simp [he]
    exact ⟨_, step_illegal hp hw, hcmd, fun h0 => hcmd.symm.trans h0⟩
  case kept => exact fun s t he hr h => (step_keeps_reported_error he hr h).2
  case read =>
    intro s rest hinv he hp
    obtain ⟨-, hzero⟩ := hinv
    exact ⟨_, step_readStatus hp, congrArg Reply.status (hzero he)⟩

end Sys2Proof.Machine
end

section
/-! Host accesses and slots of the buffer (`20_memory.md` R43, R45): a read answers what the block's own state
determines and keeps that state, a limb write is said limb by limb, and a slot write stays inside its slot. -/

namespace Sys2Proof.Machine

/-! ## Reads -/

theorem SameBlock.trans {s t u : State} (hst : SameBlock s t) (htu : SameBlock t u) : SameBlock s u where
  regs r := (htu.regs r).trans (hst.regs r)
  bytes a := (htu.bytes a).trans (hst.bytes a)
  err := htu.err.trans hst.err
  errcmd := htu.errcmd.trans hst.errcmd

theorem SameBlock.statusReg {s t : State} (h : SameBlock s t) (n : Fin 2) : t.statusReg n = s.statusReg n := by
  simp only [State.statusReg, State.statusWord, h.err, h.errcmd]

section read
variable {o : HostOp} {answer : State → Reply} (ho : ∀ s, hostOp o s = .next (s.respond (answer s)))
  (hblock : ∀ s t, SameBlock s t → answer t = answer s)
include ho hblock

/-- An operation that only answers, with a reply determined by the block's own state, keeps the block. -/
theorem step_read {s : State} {rest : List HostOp} (hp : s.pending = o :: rest) :
    ∃ t, step s = .next t ∧ SameBlock s t ∧ t.pending = rest ∧ t.reply = answer s :=
  ⟨_, (step_cons hp).trans (ho _), respond_sameBlock s rest _, rfl,
    hblock s _ ⟨fun _ => rfl, fun _ => rfl, rfl, rfl⟩⟩

/-- Repeated, it answers the same: the first answer leaves everything that the second depends on. -/
theorem step_read_twice {s : State} {rest : List HostOp} (hp : s.pending = o :: o :: rest) :
    ∃ t u, step s = .next t ∧ SameBlock s t ∧ step t = .next u ∧ SameBlock s u ∧ u.reply = t.reply := by
  obtain ⟨t, hst, hsame, hpt, hreply⟩ := step_read ho hblock hp
  obtain ⟨u, htu, hsame', -, hreply'⟩ := step_read ho hblock hpt
  exact ⟨t, u, hst, hsame, htu, hsame.trans hsame', by rw [hreply', hreply, hblock s t hsame]⟩
end read

/-! ## Writes -/

/-- Reading a limb after a host limb write: that limb of that register alone is new. -/
theorem limb_reg_setReg_setLimb (s : State) (r r' : Reg) (i j : Fin 5) (v : Word) :
    limb ((s.setReg r (setLimb (s.reg r) i v)).reg r') j = if (r', j) = (r, i) then v else limb (s.reg r') j := by
  by_cases hr : r = r'
  · subst hr
    simp [limb_setLimb, eq_comm]
  · simp [hr, Ne.symm hr]

/-- TOB leaves the bytes of every slot but its own. -/
theorem byte_exec_tob_other_slot {s t : State} {slot k : Slot} {rs1 : Reg} (h : exec (.tob slot rs1) s = .next t)
    (hk : k ≠ slot) (j : Fin 32) : t.byte (slotAddr k j) = s.byte (slotAddr k j) := by
  have houtside : ∀ j', slotAddr k j ≠ slotAddr slot j' := fun j' heq => hk (slotAddr_inj heq).1
  cases h
  exact byte_setSlot_other s slot _ (length_bytes32 _) _ houtside

/-! ## The statements -/

/-- Settles O19: each of the three reads is an instance of `step_read_twice`; the writes are read-after-write. -/
theorem readsHaveNoSideEffect : Obligations.ReadsHaveNoSideEffect := by
  refine ⟨?reads, ?writeByte, ?writeLimb⟩
  case reads =>
    rintro s o rest (⟨a, rfl⟩ | ⟨r, i, rfl⟩ | ⟨n, rfl⟩) hp
    · exact step_read_twice (fun _ => rfl) (fun _ _ h => congrArg Reply.byte (h.bytes a)) hp
    · exact step_read_twice (fun _ => rfl) (fun _ _ h => congrArg (fun x => Reply.limb (limb x i)) (h.regs r)) hp
    · exact step_read_twice (fun _ => rfl) (fun _ _ h => congrArg Reply.status (h.statusReg n)) hp
  case writeByte =>
    intro s a b t h
    cases h
    exact ⟨by simp [byte_setByte], fun _ => rfl, fun x hx => by simp [byte_setByte, hx], rfl, rfl⟩
  case writeLimb =>
    intro s r i v t h
    cases h
    refine ⟨?_, fun _ => rfl, fun r' j hne => ?_, rfl, rfl⟩
    · rw [respond_reg, limb_reg_setReg_setLimb, if_pos rfl]
    · rw [respond_reg, limb_reg_setReg_setLimb, if_neg hne]

/-- Settles O21: slot addresses are `32·k + j`, so quotient and remainder by 32 give slot and byte back. -/
theorem slotsTileTheBuffer : Obligations.SlotsTileTheBuffer := by
  refine ⟨?addresses, fun _ _ _ _ => slotAddr_inj, ?order, ?tob⟩
  case addresses => exact fun k j => ⟨slotAddr_val k j, by omega⟩
  case order => exact fun s k => List.ofFn_eq_map.symm
  case tob => exact fun s t slot rs1 k j h hk => byte_exec_tob_other_slot h hk j

end Sys2Proof.Machine
end

section
/-! The encoding (`30_encoding.md` R61 to R65, R70). The decoder reads a command from exactly the fields the encoder
gives it; the rows of the opcode map and the check of R65 are held against that one fact. -/

namespace Sys2Proof.Machine

/-! ## The decoder and the encoder, on fields -/

/-- The facts of Laws/PerInstr.lean for whichever command it is. -/
theorem encodedFields (i : Instr) : Laws.EncodedFields.Statement i := by
  cases i with
  | add rd rs1 rs2 => exact Laws.EncodedFields.add rd rs1 rs2
  | sub rd rs1 rs2 => exact Laws.EncodedFields.sub rd rs1 rs2
  | neg rd rs1 => exact Laws.EncodedFields.neg rd rs1
  | mul rd rs1 rs2 => exact Laws.EncodedFields.mul rd rs1 rs2
  | sqr rd rs1 => exact Laws.EncodedFields.sqr rd rs1
  | sqr2 rd rs1 => exact Laws.EncodedFields.sqr2 rd rs1
  | cmov rd rs1 flag => exact Laws.EncodedFields.cmov rd rs1 flag
  | fromb rd slot => exact Laws.EncodedFields.fromb rd slot
  | tob slot rs1 => exact Laws.EncodedFields.tob slot rs1

/-- Fields decode to a command exactly when they are the ones the encoder gives that command. -/
theorem decodeFields_eq_command {c : Fields} {i : Instr} : decodeFields c = .command i ↔ c = encodeFields i := by
  constructor
  · intro h
    obtain ⟨op, rd, rs1, rs2, slot, zero, flag⟩ := c
    unfold decodeFields at h
    split at h
    case h_10 => cases h
    all_goals
      obtain ⟨hzero, rfl⟩ := commandIf_eq_command.mp h
      simp_all [encodeFields]
  · rintro rfl
    exact (encodedFields i).2

/-- A word decodes to a command exactly when its fields are the command's. -/
theorem decode_eq_command {w : CmdWord} {i : Instr} : decode w = .command i ↔ fieldsOf w = encodeFields i :=
  decodeFields_eq_command

/-- The decoder accepts the fields that pass the check of R65. -/
theorem exists_command_iff_wellFormed {c : Fields} : (∃ i, decodeFields c = .command i) ↔ c.wellFormed = true := by
  constructor
  · rintro ⟨i, h⟩
    rw [decodeFields_eq_command.mp h]
    exact (encodedFields i).1
  · intro h
    obtain ⟨op, rd, rs1, rs2, slot, zero, flag⟩ := c
    unfold Fields.wellFormed at h
    split at h <;> simp_all [decodeFields, commandIf]

/-- A word is illegal exactly when it decodes to no command. -/
theorem illegalWord_iff {w : CmdWord} : IllegalWord w ↔ ¬ ∃ i, decode w = .command i := by
  unfold IllegalWord
  cases decode w <;> simp

/-- What the fields of every command have in common: an assigned `op`, `zero = 0`, and a flag for CMOV only (R65). -/
theorem encodeFields_common (i : Instr) :
    0 < (encodeFields i).op.toNat ∧ (encodeFields i).op.toNat < 0x0A ∧ (encodeFields i).zero.toNat = 0 ∧
      ((encodeFields i).op.toNat = 0x07 ∨ (encodeFields i).flag.toNat = 0) := by
  cases i <;> simp [encodeFields]

/-! ## The rows of the opcode map -/

theorem ofFin_nibble (w : CmdWord) (lo : Nat) : BitVec.ofFin (w := 4) (nibble w lo) = w.extractLsb' lo 4 := by
  apply BitVec.eq_of_toNat_eq
  simp [nibble, BitVec.extractLsb'_toNat, Nat.shiftRight_eq_div_pow]

/-- Masking a word masks each of its fields. -/
theorem fieldsOf_and (w m : CmdWord) :
    fieldsOf (w &&& m) = ⟨(fieldsOf w).op &&& (fieldsOf m).op, (fieldsOf w).rd &&& (fieldsOf m).rd,
      (fieldsOf w).rs1 &&& (fieldsOf m).rs1, (fieldsOf w).rs2 &&& (fieldsOf m).rs2,
      (fieldsOf w).slot &&& (fieldsOf m).slot, (fieldsOf w).zero &&& (fieldsOf m).zero,
      (fieldsOf w).flag &&& (fieldsOf m).flag⟩ := by
  rw [← fieldsOf_wordOf ⟨_, _, _, _, _, _, _⟩, ← wordOf_and, wordOf_fieldsOf, wordOf_fieldsOf]

/-- A row matches a word exactly when the masked fields are the pattern's. -/
theorem fits_iff {r : OpcodeRow} {w : CmdWord} : r.fits w ↔ fieldsOf (w &&& r.mask) = fieldsOf r.pattern := by
  rw [← wordOf_inj, wordOf_fieldsOf, wordOf_fieldsOf, OpcodeRow.fits]

/-- A word matches a row exactly when it decodes to the row's command (R62): both say that `op` is the row's and that
the fields under the mask are 0. -/
theorem fits_iff_decode {r : OpcodeRow} (hr : r ∈ opcodeMap) {w : CmdWord} :
    r.fits w ↔ decode w = .command (r.command w) := by
  rw [fits_iff, fieldsOf_and, decode_eq_command]
  -- a field that the mask selects is kept whole
  have hop : ∀ x : BitVec 8, x &&& 255#8 = x := fun _ => BitVec.and_allOnes
  have hzero : ∀ x : BitVec 7, x &&& 127#7 = x := fun _ => BitVec.and_allOnes
  have hnibble : ∀ x : BitVec 4, x &&& 15#4 = x := fun _ => BitVec.and_allOnes
  have hflag : ∀ x : BitVec 1, x &&& 1#1 = x := fun _ => BitVec.and_allOnes
  simp only [opcodeMap, List.mem_cons, List.not_mem_nil, or_false] at hr
  rcases hr with rfl | rfl | rfl | rfl | rfl | rfl | rfl | rfl | rfl <;>
    simp [fieldsOf, encodeFields, ofFin_nibble, BitVec.setWidth_eq_extractLsb', hop, hzero, hnibble, hflag]

/-- The word of a command matches a row: the masked fields of the command are those of its opcode's pattern. -/
theorem exists_fits {w : CmdWord} {i : Instr} (h : decode w = .command i) : ∃ r ∈ opcodeMap, r.fits w := by
  simp only [fits_iff, fieldsOf_and, decode_eq_command.mp h]
  cases i <;> simp [opcodeMap, fieldsOf, encodeFields]

/-- A word that matches a row has the row's pattern as its `op` byte. -/
theorem and_eq_pattern {r : OpcodeRow} (hr : r ∈ opcodeMap) {w : CmdWord} (h : r.fits w) :
    w &&& 0xFF000000 = r.pattern := by
  have hop : ∀ r ∈ opcodeMap, r.mask &&& 0xFF000000 = 0xFF000000 ∧ r.pattern &&& 0xFF000000 = r.pattern := by decide
  obtain ⟨hmask, hpattern⟩ := hop r hr
  calc w &&& 0xFF000000 = (w &&& r.mask) &&& 0xFF000000 := by rw [BitVec.and_assoc, hmask]
    _ = r.pattern := by rw [h, hpattern]

/-! ## The pseudo-instructions' commands -/

/-- CMOV writes the selected register (R115). -/
theorem exec_cmov (rd rs1 : Reg) (flag : BitVec 1) (s : State) :
    exec (.cmov rd rs1 flag) s = .next (s.setReg rd (if flag = 1 then s.reg rs1 else s.reg rd)) := by
  rw [← cmovLimbs_eq]; rfl

/-- A limb added to itself is doubled modulo 2^64 (R90). -/
theorem toNat_limb_addLimbs_self (x : FieldElement) (k : Fin 5) :
    (limb (addLimbs x x) k).toNat = 2 * (limb x k).toNat % 2 ^ 64 := by
  rw [addLimbs, limb_ofLimbs, BitVec.toNat_add, Nat.two_mul]

/-! ## The statements -/

/-- Settles O2: `fits_iff_decode` and `exists_fits` identify the rows that match with the commands the decoder reads;
rows exclude each other by their opcodes. -/
theorem decodeFollowsTheOpcodeMap : Obligations.DecodeFollowsTheOpcodeMap := by
  have hrow : ∀ w i, decode w = .command i ↔ ∃ r ∈ opcodeMap, r.fits w ∧ i = r.command w := by
    intro w i
    constructor
    · intro h
      obtain ⟨r, hr, hfits⟩ := exists_fits h
      exact ⟨r, hr, hfits, Decoded.command.inj (h.symm.trans ((fits_iff_decode hr).mp hfits))⟩
    · rintro ⟨r, hr, hfits, rfl⟩
      exact (fits_iff_decode hr).mp hfits
  refine ⟨hrow, ?illegal, ?disjoint, slotAddr_val⟩
  case illegal =>
    intro w
    rw [illegalWord_iff]
    constructor
    · exact fun h r hr hfits => h ⟨_, (fits_iff_decode hr).mp hfits⟩
    · rintro h ⟨i, hi⟩
      obtain ⟨r, hr, hfits, -⟩ := (hrow w i).mp hi
      exact h r hr hfits
  case disjoint =>
    have hpatterns : opcodeMap.Pairwise fun r₁ r₂ => r₁.pattern ≠ r₂.pattern := by decide
    refine hpatterns.imp_of_mem fun h₁ h₂ hne w => ?_
    rintro ⟨hw₁, hw₂⟩
    exact hne ((and_eq_pattern h₁ hw₁).symm.trans (and_eq_pattern h₂ hw₂))

/-- Settles O4: a command's fields determine the word, and `encodeFields_common` bounds what they can be. -/
theorem unusedFieldsMustBeZero : Obligations.UnusedFieldsMustBeZero := by
  refine ⟨?oneWord, fun w => ⟨?check, ?clauses⟩⟩
  case oneWord =>
    intro w w' i h h'
    rw [← wordOf_fieldsOf w, decode_eq_command.mp h, ← decode_eq_command.mp h', wordOf_fieldsOf]
  case check =>
    rw [illegalWord_iff, ← Bool.not_eq_true, ← exists_command_iff_wellFormed]
    rfl
  case clauses =>
    obtain ⟨hop, -, -, -, -, hzero, hflag⟩ := fieldsOf_toNat w
    have hlegal : ¬ IllegalWord w → 0 < w.toNat / 2 ^ 24 ∧ w.toNat / 2 ^ 24 < 0x0A ∧ w.toNat / 2 % 2 ^ 7 = 0 ∧
        (w.toNat / 2 ^ 24 = 0x07 ∨ w.toNat % 2 = 0) := by
      rw [illegalWord_iff, not_not]
      rintro ⟨i, hi⟩
      rw [← hop, ← hzero, ← hflag, decode_eq_command.mp hi]
      exact encodeFields_common i
    by_cases h : IllegalWord w
    · exact ⟨fun _ => h, fun _ => h, fun _ _ => h⟩
    · obtain ⟨hpos, hlt, hz, hf⟩ := hlegal h
      exact ⟨fun hbad => by omega, fun hbad => absurd hz hbad, fun hbad hne => by omega⟩

/-- Settles O40: the three expansions are CMOV's selection and ADD's sum at equal sources. -/
theorem pseudoInstructionsExpandToOneCommand : Obligations.PseudoInstructionsExpandToOneCommand := by
  refine ⟨?mov, ⟨rfl, ?nop⟩, ?dbl⟩
  case mov => exact fun d a s => ⟨_, exec_cmov d a 1 s, reg_setReg_self s d _, setReg_only s d _⟩
  case nop => exact fun s => (exec_cmov 0 0 0 s).trans (congrArg Host.Outcome.next (setReg_reg_self s 0))
  case dbl =>
    intro d a s
    refine ⟨_, rfl, setReg_only s d _, fun k => ?_⟩
    rw [reg_setReg_self]
    exact toNat_limb_addLimbs_self (s.reg a) k

end Sys2Proof.Machine
end

section
/-! The datapath and the frame of the commands (`40_datapath_primitives.md` R83 to R89). What a command writes is said
once as a function of its sources; the carry pass, the fold and the formulas of SUB and MUL are given their values when
nothing wraps. -/

namespace Sys2Proof.Machine

/-! ## What a command writes -/

/-- The limbs a command computes from its sources: for its destination register, or (TOB) for the encoding. -/
def resultLimbs (i : Instr) (s : State) : FieldElement :=
  match i with
  | .add _ a b => addLimbs (s.reg a) (s.reg b)
  | .sub _ a b => subLimbs (s.reg a) (s.reg b)
  | .neg _ a => negLimbs (s.reg a)
  | .mul _ a b => mulLimbs (s.reg a) (s.reg b)
  | .sqr _ a => sqrLimbs (s.reg a)
  | .sqr2 _ a => sqr2Limbs (s.reg a)
  | .cmov d a flag => cmovLimbs flag (s.reg d) (s.reg a)
  | .fromb _ slot => frombLimbs (le256 (s.slotBytes slot))
  | .tob _ a => tobLimbs (s.reg a)

theorem exec_of_destReg {i : Instr} {rd : Reg} (h : destReg i = some rd) (s : State) :
    exec i s = .next (s.setReg rd (resultLimbs i s)) := by
  cases i with
  | tob slot rs1 => cases h
  | _ => cases h; rfl

theorem exec_of_destSlot {i : Instr} {k : Slot} (h : destSlot i = some k) (s : State) :
    exec i s = .next (s.setSlot k (bytes32 (value (resultLimbs i s)))) := by
  cases i with
  | tob slot rs1 => cases h; rfl
  | _ => cases h

/-- A command writes a register exactly when it writes no slot (R89). -/
theorem destReg_eq_none_iff (i : Instr) : destReg i = none ↔ destSlot i ≠ none := by
  cases i <;> simp [destReg, destSlot]

theorem reg_of_exec {i : Instr} {rd : Reg} {s t : State} (hd : destReg i = some rd) (h : exec i s = .next t) :
    t.reg rd = resultLimbs i s := by
  rw [exec_of_destReg hd] at h
  cases h
  exact reg_setReg_self s rd _

/-- Two commands that compute the same limbs leave the same in their destinations, whichever these are (R88). -/
theorem reg_eq_of_same_result {i i' : Instr} {d d' : Reg} {s t t' : State} (hd : destReg i = some d)
    (hd' : destReg i' = some d') (hsame : resultLimbs i s = resultLimbs i' s) (h : exec i s = .next t)
    (h' : exec i' s = .next t') : t.reg d = t'.reg d' := by
  rw [reg_of_exec hd h, reg_of_exec hd' h', hsame]

theorem byte_of_exec {i : Instr} {k : Slot} {s t : State} (hd : destSlot i = some k) (h : exec i s = .next t)
    (j : Fin 32) : t.byte (slotAddr k j) = (bytes32 (value (resultLimbs i s)))[j.val]'(by simp) := by
  rw [exec_of_destSlot hd] at h
  cases h
  exact byte_setSlot_self s k _ (length_bytes32 _) j

/-- States that agree on a command's sources give it the same result (R89). -/
theorem resultLimbs_congr {i : Instr} {s₁ s₂ : State} (hregs : ∀ r ∈ sourceRegs i, s₁.reg r = s₂.reg r)
    (hslot : ∀ k, sourceSlot i = some k → ∀ j, s₁.byte (slotAddr k j) = s₂.byte (slotAddr k j)) :
    resultLimbs i s₁ = resultLimbs i s₂ := by
  cases i with
  | fromb rd slot => rw [resultLimbs, resultLimbs, slotBytes_congr (hslot slot rfl)]
  | _ =>
    simp only [sourceRegs, List.forall_mem_cons] at hregs
    simp [resultLimbs, hregs]

/-! ## The carry pass and the fold, with nothing wrapped -/

/-- The carry pass moves the top carry `q` to limb 0 as `19·q`, which subtracts `q·p` from the value (R84). -/
theorem value_carryPass {x : FieldElement} (h : CarryOk x) : value (carryPass x) + topCarry x * p = value x := by
  obtain ⟨h0, h1, h2, h3, h4, -⟩ := carryPass_exact x h
  simp only [value, topCarry, p, h0, h1, h2, h3, h4]
  omega

theorem tight_carryPass {x : FieldElement} (h : CarryOk x) : Tight (carryPass x) := by
  obtain ⟨h0, h1, h2, h3, h4, hu⟩ := carryPass_exact x h
  simp only [Tight, h0, h1, h2, h3, h4]
  omega

theorem value_carryPass_mod {x : FieldElement} (h : CarryOk x) : value (carryPass x) % p = value x % p := by
  rw [← value_carryPass h, Nat.add_mul_mod_self_right]

theorem carryOk_of_bnd {x : FieldElement} (h : Bnd x 54) : CarryOk x := by
  rw [Bnd, forall_limb] at h
  obtain ⟨-, h1, h2, h3, h4⟩ := h
  simp only [limb_one, limb_two, limb_three, limb_four] at h1 h2 h3 h4
  exact ⟨by omega, by omega, by omega, by omega⟩

/-- The number that five accumulators represent (R85). -/
def accsValue (A : Accs) : Nat :=
  A.a0.toNat + A.a1.toNat * 2 ^ 51 + A.a2.toNat * 2 ^ 102 + A.a3.toNat * 2 ^ 153 + A.a4.toNat * 2 ^ 204

section reduce128
variable {A : Accs} (hacc : ∀ k, (acc A k).toNat < 2 ^ 115)
  (htop : (acc A 0).toNat % 2 ^ 51 + 19 * ((acc A 4).toNat / 2 ^ 51) < 2 ^ 64)
  (hcarry : ∀ k, k ≠ 0 → (acc A k).toNat % 2 ^ 51 + (acc A (k - 1)).toNat / 2 ^ 51 ≤ 2 ^ 64 - 2 ^ 13)
include hacc htop hcarry

/-- Under R87's conditions the fold is exact, and its limbs meet the carry pass's condition. -/
theorem fold128_limbs :
    (fold128 A).v0.toNat = A.a0.toNat % 2 ^ 51 + 19 * (A.a4.toNat / 2 ^ 51) ∧
      (fold128 A).v1.toNat = A.a1.toNat % 2 ^ 51 + A.a0.toNat / 2 ^ 51 ∧
      (fold128 A).v2.toNat = A.a2.toNat % 2 ^ 51 + A.a1.toNat / 2 ^ 51 ∧
      (fold128 A).v3.toNat = A.a3.toNat % 2 ^ 51 + A.a2.toNat / 2 ^ 51 ∧
      (fold128 A).v4.toNat = A.a4.toNat % 2 ^ 51 + A.a3.toNat / 2 ^ 51 ∧ CarryOk (fold128 A) := by
  have g1 : A.a1.toNat % 2 ^ 51 + A.a0.toNat / 2 ^ 51 ≤ 2 ^ 64 - 2 ^ 13 := hcarry 1 (by decide)
  have g2 : A.a2.toNat % 2 ^ 51 + A.a1.toNat / 2 ^ 51 ≤ 2 ^ 64 - 2 ^ 13 := hcarry 2 (by decide)
  have g3 : A.a3.toNat % 2 ^ 51 + A.a2.toNat / 2 ^ 51 ≤ 2 ^ 64 - 2 ^ 13 := hcarry 3 (by decide)
  have g4 : A.a4.toNat % 2 ^ 51 + A.a3.toNat / 2 ^ 51 ≤ 2 ^ 64 - 2 ^ 13 := hcarry 4 (by decide)
  obtain ⟨e0, e1, e2, e3, e4⟩ := fold128_exact A (hacc 0) (hacc 1) (hacc 2) (hacc 3) (hacc 4) htop
    (by omega) (by omega) (by omega) (by omega)
  exact ⟨e0, e1, e2, e3, e4, e1 ▸ g1, e2 ▸ g2, e3 ▸ g3, e4 ▸ g4⟩

/-- The fold moves the top carry to limb 0 as 19 times itself, which subtracts that many `p` (R87). -/
theorem value_fold128 : value (fold128 A) + A.a4.toNat / 2 ^ 51 * p = accsValue A := by
  obtain ⟨e0, e1, e2, e3, e4, -⟩ := fold128_limbs hacc htop hcarry
  simp only [value, accsValue, p, e0, e1, e2, e3, e4]
  omega

theorem value_reduce128_mod : value (reduce128 A) % p = accsValue A % p := by
  obtain ⟨-, -, -, -, -, hok⟩ := fold128_limbs hacc htop hcarry
  rw [reduce128, value_carryPass_mod hok, ← value_fold128 hacc htop hcarry, Nat.add_mul_mod_self_right]

end reduce128

/-! ## SUB and MUL, with nothing wrapped -/

/-- The subtraction constants represent `2p` (R91). -/
theorem value_kConst : value (ofLimbs kConst) = 2 * p := rfl

/-- The constants exceed every limb of a carried subtrahend (R91). -/
theorem limb_carryPass_le_kConst {b : FieldElement} (hb : CarryOk b) (k : Fin 5) :
    (limb (carryPass b) k).toNat ≤ (kConst k).toNat := by
  obtain ⟨h0, h1, h2, h3, h4⟩ := tight_carryPass hb
  have hk0 : 2 ^ 51 + 2 ^ 18 ≤ (kConst 0).toNat := by decide
  have hk : ∀ i, 2 ^ 51 ≤ (kConst i).toNat := by decide
  revert k
  exact forall_limb.mpr
    ⟨h0.le.trans hk0, h1.le.trans (hk 1), h2.le.trans (hk 2), h3.le.trans (hk 3), h4.le.trans (hk 4)⟩

/-- SUB's limbs are exact: adding the constant does not wrap, and subtracting the carried limb does not borrow (R92). -/
theorem toNat_limb_subLimbs {a b : FieldElement} (hb : CarryOk b) (ha : ∀ k, (limb a k).toNat < 2 ^ 64 - 2 ^ 52)
    (k : Fin 5) :
    (limb (subLimbs a b) k).toNat + (limb (carryPass b) k).toNat = (limb a k).toNat + (kConst k).toNat := by
  have hle := limb_carryPass_le_kConst hb k
  have hk : (kConst k).toNat < 2 ^ 52 := by rw [toNat_kConst]; split <;> omega
  have hak := ha k
  rw [subLimbs, limb_ofLimbs, BitVec.toNat_sub, BitVec.toNat_add]
  omega

/-- Limb-wise equal sums have equal values. -/
theorem value_add_value_eq {x y a b : FieldElement}
    (h : ∀ k, (limb x k).toNat + (limb y k).toNat = (limb a k).toNat + (limb b k).toNat) :
    value x + value y = value a + value b := by
  rw [forall_limb] at h
  simp only [limb_zero, limb_one, limb_two, limb_three, limb_four] at h
  simp only [value]
  omega

/-- What SUB computes, exactly: `a − b + (2 + q)·p`, `q` the top carry of the subtrahend (R92). -/
theorem value_subLimbs {a b : FieldElement} (hb : CarryOk b) (ha : ∀ k, (limb a k).toNat < 2 ^ 64 - 2 ^ 52) :
    value (subLimbs a b) + value b = value a + (2 + topCarry b) * p := by
  have hsum : value (subLimbs a b) + value (carryPass b) = value a + value (ofLimbs kConst) :=
    value_add_value_eq fun k => by rw [toNat_limb_subLimbs hb ha, limb_ofLimbs]
  have hcarry := value_carryPass hb
  rw [value_kConst] at hsum
  rw [Nat.add_mul]
  omega

theorem toNat_widen_mul19 {x : Word} (h : x.toNat < 2 ^ 59) (y : Word) :
    (widen (19 * x) y).toNat = 19 * (x.toNat * y.toNat) := by
  rw [toNat_widen, toNat_mul19, Nat.mod_eq_of_lt (by omega), Nat.mul_assoc]

/-- The part of a product that weighs `2^255` and more: the pairs of limbs that MUL wraps around (R100). -/
def mulOverflow (a b : FieldElement) : Nat :=
  (a.v1.toNat * b.v4.toNat + a.v2.toNat * b.v3.toNat + a.v3.toNat * b.v2.toNat + a.v4.toNat * b.v1.toNat) +
    (a.v2.toNat * b.v4.toNat + a.v3.toNat * b.v3.toNat + a.v4.toNat * b.v2.toNat) * 2 ^ 51 +
    (a.v3.toNat * b.v4.toNat + a.v4.toNat * b.v3.toNat) * 2 ^ 102 + a.v4.toNat * b.v4.toNat * 2 ^ 153

section mul
variable {a b : FieldElement} (ha : ∀ i, (limb a i).toNat < 2 ^ 59)
  (hprod : ∀ i j, (limb a i).toNat * (limb b j).toNat < 2 ^ 108)
include ha hprod

/-- MUL's accumulators are exact: a pre-multiplied limb does not wrap, nor does a sum of products below `2^108`
(R100, R101). -/
theorem toNat_mulAccs :
    (mulAccs a b).a0.toNat = a.v0.toNat * b.v0.toNat + 19 * (a.v1.toNat * b.v4.toNat + a.v2.toNat * b.v3.toNat +
      a.v3.toNat * b.v2.toNat + a.v4.toNat * b.v1.toNat) ∧
    (mulAccs a b).a1.toNat = a.v0.toNat * b.v1.toNat + a.v1.toNat * b.v0.toNat +
      19 * (a.v2.toNat * b.v4.toNat + a.v3.toNat * b.v3.toNat + a.v4.toNat * b.v2.toNat) ∧
    (mulAccs a b).a2.toNat = a.v0.toNat * b.v2.toNat + a.v1.toNat * b.v1.toNat + a.v2.toNat * b.v0.toNat +
      19 * (a.v3.toNat * b.v4.toNat + a.v4.toNat * b.v3.toNat) ∧
    (mulAccs a b).a3.toNat = a.v0.toNat * b.v3.toNat + a.v1.toNat * b.v2.toNat + a.v2.toNat * b.v1.toNat +
      a.v3.toNat * b.v0.toNat + 19 * (a.v4.toNat * b.v4.toNat) ∧
    (mulAccs a b).a4.toNat = a.v0.toNat * b.v4.toNat + a.v1.toNat * b.v3.toNat + a.v2.toNat * b.v2.toNat +
      a.v3.toNat * b.v1.toNat + a.v4.toNat * b.v0.toNat := by
  simp only [forall_limb, limb_zero, limb_one, limb_two, limb_three, limb_four] at ha hprod
  obtain ⟨-, h1, h2, h3, h4⟩ := ha
  simp only [mulAccs, BitVec.toNat_add, toNat_widen_mul19 h1, toNat_widen_mul19 h2, toNat_widen_mul19 h3,
    toNat_widen_mul19 h4, toNat_widen]
  refine ⟨?_, ?_, ?_, ?_, ?_⟩ <;> omega

/-- An accumulator holds at most 77 products, the scaled ones counted 19 times; the top one holds 5 unscaled ones. -/
theorem mulAccs_lt :
    (∀ k, (acc (mulAccs a b) k).toNat < 77 * 2 ^ 108) ∧ (acc (mulAccs a b) 4).toNat < 5 * 2 ^ 108 := by
  obtain ⟨e0, e1, e2, e3, e4⟩ := toNat_mulAccs ha hprod
  simp only [forall_limb, limb_zero, limb_one, limb_two, limb_three, limb_four] at hprod
  refine ⟨forall_limb.mpr ⟨e0.trans_lt ?_, e1.trans_lt ?_, e2.trans_lt ?_, e3.trans_lt ?_, e4.trans_lt ?_⟩,
    e4.trans_lt ?_⟩ <;> omega

/-- Products of weight `2^255` and up, counted 19 times at weight 1 and up, lose a multiple of `p`. -/
theorem accsValue_mulAccs_mod : accsValue (mulAccs a b) % p = value a * value b % p := by
  obtain ⟨e0, e1, e2, e3, e4⟩ := toNat_mulAccs ha hprod
  have hwrap : value a * value b + mulOverflow a b * 19 = accsValue (mulAccs a b) + mulOverflow a b * 2 ^ 255 := by
    simp only [value, accsValue, e0, e1, e2, e3, e4, mulOverflow]
    ring
  have hval : value a * value b = accsValue (mulAccs a b) + mulOverflow a b * p := by
    rw [show 2 ^ 255 = p + 19 from rfl, Nat.mul_add] at hwrap
    omega
  rw [hval, Nat.add_mul_mod_self_right]

/-- MUL multiplies modulo `p` (R101). -/
theorem value_mulLimbs_mod : value (mulLimbs a b) % p = value a * value b % p := by
  obtain ⟨hlt, hlt4⟩ := mulAccs_lt ha hprod
  rw [mulLimbs, value_reduce128_mod ?acc ?top ?carry, accsValue_mulAccs_mod ha hprod]
  case acc => exact fun k => (hlt k).trans (by norm_num)
  case top => omega
  case carry =>
    intro k hk
    have := hlt (k - 1)
    omega

end mul

/-- The operand condition of MUL (R101) bounds the products. -/
theorem limb_mul_limb_lt {a b : FieldElement} (ha : Bnd a 54) (hb : Bnd b 54) (i j : Fin 5) :
    (limb a i).toNat * (limb b j).toNat < 2 ^ 108 :=
  calc (limb a i).toNat * (limb b j).toNat < 2 ^ 54 * 2 ^ 54 := Nat.mul_lt_mul'' (ha i) (hb j)
    _ = 2 ^ 108 := by norm_num

/-! ## The statements -/

/-- Settles O24: each word operation of the pass is its operation on numbers, with its own reduction. -/
theorem carryPassRipplesOnce : Obligations.CarryPassRipplesOnce := by
  intro x u1 u2 u3 u4
  simp only [carryPass, BitVec.toNat_add, toNat_and_mask51, toNat_shr51, toNat_mul19]
  exact ⟨rfl, rfl, rfl, rfl, rfl⟩

/-- Bit `i` of the carry is bit `51 + i` of the accumulator: for `i < 13` a bit of the low half, from there on one of
the high half (R85). -/
theorem accCarry_eq_halves (a : Acc) : accCarry a = (a.extractLsb' 64 64 <<< 13) ||| (a.extractLsb' 0 64 >>> 51) := by
  apply BitVec.eq_of_getLsbD_eq
  intro i hi
  by_cases h : i < 13
  · have hlow : 51 + i < 64 := by omega
    simp [accCarry, hi, h, hlow]
  · have hhigh : ¬ 51 + i < 64 := by omega
    have hindex : 64 + (i - 13) = 51 + i := by omega
    simp [accCarry, hi, h, hhigh, hindex]

/-- Settles O26: `accCarry_eq_halves` reads the carry off the two halves, and each word operation of the fold is its
operation on numbers. -/
theorem fold128TakesCarriesInParallel : Obligations.Fold128TakesCarriesInParallel := by
  refine ⟨accCarry_eq_halves, ?_⟩
  intro A c l
  simp only [fold128, BitVec.toNat_add, toNat_mul19, toNat_accLow, toNat_accCarry]
  exact ⟨rfl, rfl, rfl, rfl, rfl, rfl⟩

/-- Settles O22: a command is one write of `resultLimbs` to its destination, and `resultLimbs` depends on the sources
only. -/
theorem commandsTouchOnlyTheirArguments : Obligations.CommandsTouchOnlyTheirArguments := by
  refine ⟨fun i s t h => ⟨fun rd hd => ?reg, fun k hk => ?slot, destReg_eq_none_iff i⟩,
    fun i s₁ s₂ t₁ t₂ hregs hslot h₁ h₂ => ?result⟩
  case reg =>
    cases (exec_of_destReg hd s).symm.trans h
    exact setReg_only s rd _
  case slot =>
    cases (exec_of_destSlot hk s).symm.trans h
    exact setSlot_only s k _ (length_bytes32 _)
  case result =>
    have hsame := resultLimbs_congr hregs hslot
    exact ⟨fun rd hd => by rw [reg_of_exec hd h₁, reg_of_exec hd h₂, hsame],
      fun k hk j => by simp only [byte_of_exec hk h₁, byte_of_exec hk h₂, hsame]⟩

/-- Settles O23: `resultLimbs` does not mention the destination, except for CMOV, which at equal registers selects the
register's own limbs; the three examples are the exact values of MUL, SUB and ADD at equal operands. -/
theorem aliasedDestinationsGetTheSameResult : Obligations.AliasedDestinationsGetTheSameResult := by
  refine ⟨?add, ?sub, ?neg, ?mul, ?sqr, ?sqr2, ?cmov, ?square, ?zero, ?double⟩
  case add => exact fun d d' a b s t t' => reg_eq_of_same_result rfl rfl rfl
  case sub => exact fun d d' a b s t t' => reg_eq_of_same_result rfl rfl rfl
  case neg => exact fun d d' a s t t' => reg_eq_of_same_result rfl rfl rfl
  case mul => exact fun d d' a b s t t' => reg_eq_of_same_result rfl rfl rfl
  case sqr => exact fun d d' a s t t' => reg_eq_of_same_result rfl rfl rfl
  case sqr2 => exact fun d d' a s t t' => reg_eq_of_same_result rfl rfl rfl
  case cmov => exact fun d f s => by rw [exec_cmov, ite_self, setReg_reg_self]
  case square =>
    intro d s t hb h
    have ha : ∀ i, (limb (s.reg d) i).toNat < 2 ^ 59 := fun i => (hb i).trans (by norm_num)
    rw [residue, residue, reg_of_exec rfl h, resultLimbs, value_mulLimbs_mod ha (limb_mul_limb_lt hb hb),
      ← Nat.pow_mod, Nat.pow_two]
  case zero =>
    intro d s t hb h
    have hval := value_subLimbs (carryOk_of_bnd hb) fun k => (hb k).trans (by norm_num)
    have hp : value (subLimbs (s.reg d) (s.reg d)) = (2 + topCarry (s.reg d)) * p := by omega
    rw [residue, reg_of_exec rfl h, resultLimbs, hp, Nat.mul_mod_left]
  case double =>
    intro d s t hb h k
    rw [reg_of_exec rfl h, resultLimbs, toNat_limb_addLimbs_self]
    have := hb k
    omega

end Sys2Proof.Machine
end

section
/-! The additive commands (`41_add_sub_neg.md` R90, R91, R93, R94): the limbs and the value of ADD, NEG as SUB from
zeros, and MUL over a sum. -/

namespace Sys2Proof.Machine

/-! ## Encoding and frame -/

/-- A command's word is the number of R64: `wordOf_toNat` at the fields the encoder gives it. -/
theorem toNat_encode (i : Instr) : (encode i).toNat = encodingNumber i := by
  rw [encode, wordOf_toNat]
  cases i <;> simp [encodeFields, encodingNumber]

/-- A command that writes a register leaves every other register. -/
theorem reg_of_exec_ne {i : Instr} {rd r : Reg} {s t : State} (hd : destReg i = some rd) (h : exec i s = .next t)
    (hr : rd ≠ r) : t.reg r = s.reg r := by
  rw [exec_of_destReg hd] at h
  cases h
  exact reg_setReg_ne s _ hr

/-! ## ADD -/

theorem toNat_limb_addLimbs (a b : FieldElement) (k : Fin 5) :
    (limb (addLimbs a b) k).toNat = ((limb a k).toNat + (limb b k).toNat) % 2 ^ 64 := by
  rw [addLimbs, limb_ofLimbs, BitVec.toNat_add]

theorem addLimbs_comm (a b : FieldElement) : addLimbs a b = addLimbs b a :=
  ext_limb fun k => by rw [addLimbs, addLimbs, limb_ofLimbs, limb_ofLimbs, BitVec.add_comm]

/-- Limbs grow by at most one bit; a limb that wraps only gets smaller (R90). -/
theorem bnd_addLimbs {a b : FieldElement} {m n : Nat} (ha : Bnd a m) (hb : Bnd b n) :
    Bnd (addLimbs a b) (max m n + 1) := by
  intro k
  calc (limb (addLimbs a b) k).toNat ≤ (limb a k).toNat + (limb b k).toNat :=
        (toNat_limb_addLimbs a b k).trans_le (Nat.mod_le _ _)
    _ < 2 ^ m + 2 ^ n := Nat.add_lt_add (ha k) (hb k)
    _ ≤ 2 ^ max m n + 2 ^ max m n := Nat.add_le_add
        (Nat.pow_le_pow_right two_pos (le_max_left m n)) (Nat.pow_le_pow_right two_pos (le_max_right m n))
    _ = 2 ^ (max m n + 1) := by rw [Nat.pow_succ, Nat.mul_two]

theorem limb_zeros (k : Fin 5) : limb ⟨0, 0, 0, 0, 0⟩ k = 0#64 := by
  fin_cases k <;> rfl

theorem toNat_limb_zeros (k : Fin 5) : (limb ⟨0, 0, 0, 0, 0⟩ k).toNat = 0 := by
  rw [limb_zeros, BitVec.toNat_zero]

theorem value_zeros : value ⟨0, 0, 0, 0, 0⟩ = 0 := rfl

section addExact
variable {a b : FieldElement} (hsum : ∀ k, (limb a k).toNat + (limb b k).toNat < 2 ^ 64)
include hsum

theorem toNat_limb_addLimbs_exact (k : Fin 5) :
    (limb (addLimbs a b) k).toNat = (limb a k).toNat + (limb b k).toNat := by
  rw [toNat_limb_addLimbs, Nat.mod_eq_of_lt (hsum k)]

theorem value_addLimbs : value (addLimbs a b) = value a + value b := by
  rw [← Nat.add_zero (value (addLimbs a b)), ← value_zeros]
  exact value_add_value_eq fun k => by rw [toNat_limb_addLimbs_exact hsum, toNat_limb_zeros, Nat.add_zero]

end addExact

/-! ## NEG -/

/-- Zeros meet the condition of SUB's minuend (R92). -/
theorem zeros_lt (k : Fin 5) : (limb ⟨0, 0, 0, 0, 0⟩ k).toNat < 2 ^ 64 - 2 ^ 52 := by
  rw [toNat_limb_zeros]
  norm_num

theorem negLimbs_eq_subLimbs (a : FieldElement) : negLimbs a = subLimbs ⟨0, 0, 0, 0, 0⟩ a :=
  ext_limb fun k => by rw [negLimbs, subLimbs, limb_ofLimbs, limb_ofLimbs, limb_zeros, BitVec.zero_add]

section negExact
variable {a : FieldElement} (ha : CarryOk a)
include ha

/-- NEG's limbs are exact: the carried limb never exceeds the constant (R93). -/
theorem toNat_limb_negLimbs_add (k : Fin 5) :
    (limb (negLimbs a) k).toNat + (limb (carryPass a) k).toNat = (kConst k).toNat := by
  rw [negLimbs_eq_subLimbs, toNat_limb_subLimbs ha zeros_lt, toNat_limb_zeros, Nat.zero_add]

/-- What NEG computes, exactly: `(2 + q)·p − a`, `q` the top carry of the operand (R93). -/
theorem value_negLimbs : value (negLimbs a) + value a = (2 + topCarry a) * p := by
  rw [negLimbs_eq_subLimbs, value_subLimbs ha zeros_lt, value_zeros, Nat.zero_add]

theorem bnd_negLimbs : Bnd (negLimbs a) 52 := by
  intro k
  have hk : ∀ i, (kConst i).toNat < 2 ^ 52 := by decide
  exact (Nat.le_add_right _ _).trans_lt ((toNat_limb_negLimbs_add ha k).trans_lt (hk k))

/-- The sum of an operand and its negation does not wrap, and is a multiple of `p` (R94). -/
theorem value_addLimbs_negLimbs_mod (hlt : ∀ k, (limb a k).toNat < 2 ^ 64 - 2 ^ 52) :
    value (addLimbs a (negLimbs a)) % p = 0 := by
  have hsum : ∀ k, (limb a k).toNat + (limb (negLimbs a) k).toNat < 2 ^ 64 := fun k => by
    have := hlt k
    have := bnd_negLimbs ha k
    omega
  rw [value_addLimbs hsum, Nat.add_comm, value_negLimbs ha, Nat.mul_mod_left]

end negExact

theorem negLimbs_zeros : negLimbs ⟨0, 0, 0, 0, 0⟩ = ofLimbs kConst := by decide

/-- The limbs of `p` carry to themselves, and the constants are twice these limbs (R93). -/
theorem negLimbs_limbsOfP :
    negLimbs ⟨0x7FFFFFFFFFFED, 0x7FFFFFFFFFFFF, 0x7FFFFFFFFFFFF, 0x7FFFFFFFFFFFF, 0x7FFFFFFFFFFFF⟩ =
      ⟨0x7FFFFFFFFFFED, 0x7FFFFFFFFFFFF, 0x7FFFFFFFFFFFF, 0x7FFFFFFFFFFFF, 0x7FFFFFFFFFFFF⟩ := by decide

/-! ## MUL over a sum -/

theorem toNat_and_mask51_lt (x : Word) : (x &&& mask51).toNat < 2 ^ 51 := by
  rw [toNat_and_mask51]
  exact Nat.mod_lt _ (by positivity)

/-- The top carry of any word is below `2^13`, so 19 times it stays below `2^18` and nothing wraps. -/
theorem toNat_and_mask51_add_carry_lt (x t : Word) :
    ((x &&& mask51) + (19 : Word) * (t >>> 51)).toNat < 2 ^ 51 + 2 ^ 18 := by
  have hcarry : t.toNat / 2 ^ 51 < 2 ^ 13 := by omega
  rw [BitVec.toNat_add, toNat_and_mask51, toNat_mul19, toNat_shr51, Nat.mod_eq_of_lt (by omega : 19 * _ < 2 ^ 64)]
  exact (Nat.mod_le _ _).trans_lt (by omega)

/-- A carried vector is `Tight` whatever it was carried from: every limb is masked, and only limb 0 gets a carry on
top. -/
theorem tight_carryPass_of_any (x : FieldElement) : Tight (carryPass x) := by
  simp only [Tight, carryPass]
  exact ⟨toNat_and_mask51_add_carry_lt _ _, toNat_and_mask51_lt _, toNat_and_mask51_lt _, toNat_and_mask51_lt _,
    toNat_and_mask51_lt _⟩

theorem tight_mulLimbs (a b : FieldElement) : Tight (mulLimbs a b) := tight_carryPass_of_any _

theorem bnd_of_tight {x : FieldElement} (h : Tight x) : Bnd x 52 := by
  obtain ⟨h0, h1, h2, h3, h4⟩ := h
  refine forall_limb.mpr ⟨h0.trans ?_, h1.trans ?_, h2.trans ?_, h3.trans ?_, h4.trans ?_⟩ <;> norm_num

theorem value_mulLimbs_mod_of_bnd {a b : FieldElement} (ha : Bnd a 54) (hb : Bnd b 54) :
    value (mulLimbs a b) % p = value a * value b % p :=
  value_mulLimbs_mod (fun i => (ha i).trans (by norm_num)) (limb_mul_limb_lt ha hb)

/-- MUL distributes over ADD modulo `p`: the sum `b + c` stays a legal operand of MUL, and the sum of two products,
being `Tight`, does not wrap (R94). -/
theorem value_mulLimbs_addLimbs_mod {a b c : FieldElement} (ha : Bnd a 54) (hb : Bnd b 54) (hc : Bnd c 54)
    (hbc : ∀ k, (limb b k).toNat + (limb c k).toNat < 2 ^ 54) :
    value (mulLimbs a (addLimbs b c)) % p = value (addLimbs (mulLimbs a b) (mulLimbs a c)) % p := by
  have hsum : ∀ k, (limb b k).toNat + (limb c k).toNat < 2 ^ 64 := fun k => (hbc k).trans (by norm_num)
  have hbnd : Bnd (addLimbs b c) 54 := fun k => (toNat_limb_addLimbs_exact hsum k).trans_lt (hbc k)
  have hprods : ∀ k, (limb (mulLimbs a b) k).toNat + (limb (mulLimbs a c) k).toNat < 2 ^ 64 := fun k => by
    have := bnd_of_tight (tight_mulLimbs a b) k
    have := bnd_of_tight (tight_mulLimbs a c) k
    omega
  calc value (mulLimbs a (addLimbs b c)) % p
      = (value a * value b + value a * value c) % p := by
        rw [value_mulLimbs_mod_of_bnd ha hbnd, value_addLimbs hsum, Nat.mul_add]
    _ = (value (mulLimbs a b) + value (mulLimbs a c)) % p := by
        rw [Nat.add_mod, ← value_mulLimbs_mod_of_bnd ha hb, ← value_mulLimbs_mod_of_bnd ha hc, ← Nat.add_mod]
    _ = value (addLimbs (mulLimbs a b) (mulLimbs a c)) % p := by rw [value_addLimbs hprods]

/-! ## The statements -/

/-- Settles O28: the wrapped sums are `toNat_limb_addLimbs`, and without a wrap the value is the sum of the values. -/
theorem addSumsLimbwise : Obligations.AddSumsLimbwise := by
  intro rd rs1 rs2 s
  refine ⟨_, rfl, setReg_only s rd _, toNat_encode _, ?_⟩
  simp only [residue, reg_setReg_self]
  refine ⟨toNat_limb_addLimbs _ _, fun hsum => ⟨toNat_limb_addLimbs_exact hsum, value_addLimbs hsum, ?residue,
    fun m n ha hb => bnd_addLimbs ha hb⟩⟩
  case residue => rw [value_addLimbs hsum, Nat.add_mod]

/-- Settles O29: the constants are the numbers `toNat_kConst` gives, and no carried limb exceeds its constant. -/
theorem subtractionConstantsAreTwoP : Obligations.SubtractionConstantsAreTwoP := by
  refine ⟨toNat_kConst 0, ?others, toNat_kConst 0, ?others, value_kConst, ?dominate⟩
  case others => exact fun k hk => (toNat_kConst k).trans (if_neg hk)
  case dominate => exact fun b hb k a => (limb_carryPass_le_kConst hb k).trans (Nat.le_add_left _ _)

/-- Settles O31: NEG is SUB from zeros, whose exact limbs and value give the contract; the two special results are
`negLimbs_zeros` and `negLimbs_limbsOfP`. -/
theorem negNegatesModP : Obligations.NegNegatesModP := by
  intro rd rs1 s
  refine ⟨_, rfl, setReg_only s rd _, toNat_encode _, ?_⟩
  simp only [residue, reg_setReg_self]
  refine ⟨fun k => ?wrapped, negLimbs_eq_subLimbs _,
    fun ha => ⟨toNat_limb_negLimbs_add ha, value_negLimbs ha, ?residue, bnd_negLimbs ha⟩, ?zeros, ?limbsOfP⟩
  case wrapped => rw [negLimbs, limb_ofLimbs, BitVec.toNat_sub, Nat.add_comm]
  case residue => rw [← Nat.add_mod, value_negLimbs ha, Nat.mul_mod_left]
  case zeros => exact fun h => h ▸ negLimbs_zeros
  case limbsOfP => exact fun h => h ▸ negLimbs_limbsOfP

/-- Settles O32: each register is traced back to the limbs it was computed from; the laws are those of the limb
formulas. -/
theorem additiveLaws : Obligations.AdditiveLaws := by
  refine ⟨?commutes, ?negation, ?distributes⟩
  case commutes => exact fun d a b s t t' => reg_eq_of_same_result rfl rfl (addLimbs_comm _ _)
  case negation =>
    intro d a s t u hda hok hlt ht hu
    rw [residue, reg_of_exec rfl hu, resultLimbs, reg_of_exec_ne rfl ht hda, reg_of_exec rfl ht, resultLimbs]
    exact value_addLimbs_negLimbs_mod hok hlt
  case distributes =>
    intro d e a b c s t u t₁ t₂ t₃ hda hdb hdc hea heb hec hde ha hb hc hbc ht hu ht₁ ht₂ ht₃
    have hleft : u.reg d = mulLimbs (s.reg a) (addLimbs (s.reg b) (s.reg c)) := by
      rw [reg_of_exec rfl hu, resultLimbs, reg_of_exec_ne rfl ht hda, reg_of_exec rfl ht, resultLimbs]
    have hd : t₂.reg d = mulLimbs (s.reg a) (s.reg b) := by
      rw [reg_of_exec_ne rfl ht₂ hde.symm, reg_of_exec rfl ht₁, resultLimbs]
    have he : t₂.reg e = mulLimbs (s.reg a) (s.reg c) := by
      rw [reg_of_exec rfl ht₂, resultLimbs, reg_of_exec_ne rfl ht₁ hda, reg_of_exec_ne rfl ht₁ hdc]
    rw [residue, residue, hleft, reg_of_exec rfl ht₃, resultLimbs, hd, he]
    exact value_mulLimbs_addLimbs_mod ha hb hc hbc

end Sys2Proof.Machine
end

section
/-! The multiplicative commands (`42_mul_sqr.md` R100, R102, R103, R105): the accumulators as numbers, SQR as MUL of
equal operands, SQR2 as a doubled square, and the laws of MUL modulo `p`. -/

namespace Sys2Proof.Machine

/-! ## The accumulators as numbers -/

/-- A sum of three accumulators wraps once, at the end. -/
theorem toNat_acc_sum_three (x y z : Acc) : (x + y + z).toNat = (x.toNat + y.toNat + z.toNat) % 2 ^ 128 := by
  simp only [BitVec.toNat_add, Nat.mod_add_mod]

/-- A sum of five accumulators wraps once, at the end. -/
theorem toNat_acc_sum_five (v w x y z : Acc) :
    (v + w + x + y + z).toNat = (v.toNat + w.toNat + x.toNat + y.toNat + z.toNat) % 2 ^ 128 := by
  simp only [BitVec.toNat_add, Nat.mod_add_mod]

/-- MUL's accumulators hold the coefficients of R100, for all operands. -/
theorem toNat_acc_mulAccs (a b : FieldElement) (k : Fin 5) :
    (acc (mulAccs a b) k).toNat = mulCoefficient a b k := by
  revert k
  refine forall_limb.mpr ⟨?_, ?_, ?_, ?_, ?_⟩ <;>
    simp only [acc, mulAccs, mulCoefficient, Fin.sum_univ_five, toNat_acc_sum_five, toNat_widen, toNat_mul19,
      Fin.reduceLE, Fin.reduceSub, if_true, if_false, sub_zero, limb_zero, limb_one, limb_two, limb_three, limb_four]

/-- SQR's accumulators hold the coefficients of R103, for all operands. -/
theorem toNat_acc_sqrAccs (a : FieldElement) (k : Fin 5) : (acc (sqrAccs a) k).toNat = sqrCoefficient a k := by
  revert k
  refine forall_limb.mpr ⟨?_, ?_, ?_, ?_, ?_⟩ <;>
    simp only [acc, sqrAccs, sqrCoefficient, toNat_acc_sum_three, toNat_widen, toNat_mul2, toNat_mul19, toNat_mul38,
      limb_zero, limb_one, limb_two, limb_three, limb_four]

/-! ## SQR as MUL of equal operands -/

/-- A factor that does not wrap in the limb can be taken out of the widening product. -/
theorem widen_mul {c x : Word} (h : c.toNat * x.toNat < 2 ^ 64) (y : Word) :
    widen (c * x) y = c.setWidth 128 * widen x y := by
  have hmul : (c * x).setWidth 128 = c.setWidth 128 * x.setWidth 128 := by
    apply BitVec.eq_of_toNat_eq
    rw [BitVec.toNat_setWidth, BitVec.toNat_mul, Nat.mod_eq_of_lt h]
    exact (toNat_widen c x).symm ▸ Nat.mod_eq_of_lt (h.trans (by norm_num))
  rw [widen, widen, hmul, mul_assoc]

/-- While no scaled copy wraps, SQR accumulates what MUL accumulates for equal operands: each of its 15 terms is one
product of MUL or two equal ones (R104). -/
theorem sqrAccs_eq_mulAccs {a : FieldElement} (ha : Bnd a 58) : sqrAccs a = mulAccs a a := by
  have hscaled : ∀ c : Word, c.toNat ≤ 38 → ∀ i y, widen (c * limb a i) y = c.setWidth 128 * widen (limb a i) y :=
    fun c hc i => widen_mul ((Nat.mul_lt_mul_of_le_of_lt hc (ha i) (by norm_num)).trans (by norm_num))
  have h2 := hscaled 2 (by decide)
  have h19 := hscaled 19 (by decide)
  have h38 := hscaled 38 (by decide)
  simp only [forall_limb, limb_zero, limb_one, limb_two, limb_three, limb_four] at h2 h19 h38
  have e2 : (2 : Word).setWidth 128 = 2 := rfl
  have e19 : (19 : Word).setWidth 128 = 19 := rfl
  have e38 : (38 : Word).setWidth 128 = 38 := rfl
  simp only [sqrAccs, mulAccs, h2, h19, h38]
  simp only [widen, Accs.mk.injEq]
  rw [e2, e19, e38]
  -- what is left holds in the ring of accumulators: the scaled terms are repeated products
  refine ⟨?_, ?_, ?_, ?_, ?_⟩ <;> ring

theorem tight_sqrLimbs (a : FieldElement) : Tight (sqrLimbs a) := tight_carryPass_of_any _

theorem sqrLimbs_eq_mulLimbs {a : FieldElement} (ha : Bnd a 58) : sqrLimbs a = mulLimbs a a := by
  rw [sqrLimbs, mulLimbs, sqrAccs_eq_mulAccs ha]

/-- SQR squares modulo `p` (R104). -/
theorem value_sqrLimbs_mod {a : FieldElement} (ha : Bnd a 54) : value (sqrLimbs a) % p = value a ^ 2 % p := by
  rw [sqrLimbs_eq_mulLimbs fun k => (ha k).trans (by norm_num), value_mulLimbs_mod_of_bnd ha ha, Nat.pow_two]

/-! ## SQR2 as a doubled square -/

/-- SQR2 is ADD of SQR's limbs to themselves (R105). -/
theorem sqr2Limbs_eq_addLimbs (a : FieldElement) : sqr2Limbs a = addLimbs (sqrLimbs a) (sqrLimbs a) := rfl

/-- Doubling a square does not wrap: its limbs are `Tight`. -/
theorem limb_sqrLimbs_add_self_lt (a : FieldElement) (k : Fin 5) :
    (limb (sqrLimbs a) k).toNat + (limb (sqrLimbs a) k).toNat < 2 ^ 64 := by
  have := bnd_of_tight (tight_sqrLimbs a) k
  omega

theorem toNat_limb_sqr2Limbs (a : FieldElement) (k : Fin 5) :
    (limb (sqr2Limbs a) k).toNat = 2 * (limb (sqrLimbs a) k).toNat := by
  rw [sqr2Limbs_eq_addLimbs, toNat_limb_addLimbs_exact (limb_sqrLimbs_add_self_lt a), Nat.two_mul]

theorem limb_lt_of_tight {x : FieldElement} (h : Tight x) : ∀ k, k ≠ 0 → (limb x k).toNat < 2 ^ 51 := by
  obtain ⟨-, h1, h2, h3, h4⟩ := h
  exact forall_limb.mpr ⟨fun h => absurd rfl h, fun _ => h1, fun _ => h2, fun _ => h3, fun _ => h4⟩

/-- SQR2's limbs are below twice the bounds of `Tight` (R105). -/
theorem sqr2Limbs_lt (a : FieldElement) :
    (sqr2Limbs a).v0.toNat < 2 ^ 52 + 2 ^ 19 ∧ ∀ k, k ≠ 0 → (limb (sqr2Limbs a) k).toNat < 2 ^ 52 := by
  have htight := tight_sqrLimbs a
  have hv0 : (sqr2Limbs a).v0.toNat = 2 * (sqrLimbs a).v0.toNat := toNat_limb_sqr2Limbs a 0
  refine ⟨by omega, fun k hk => ?_⟩
  have := limb_lt_of_tight htight k hk
  rw [toNat_limb_sqr2Limbs]
  omega

theorem bnd_sqr2Limbs (a : FieldElement) : Bnd (sqr2Limbs a) 53 := by
  intro k
  have := bnd_of_tight (tight_sqrLimbs a) k
  rw [toNat_limb_sqr2Limbs]
  omega

/-- SQR2 computes twice the square modulo `p` (R105). -/
theorem value_sqr2Limbs_mod {a : FieldElement} (ha : Bnd a 54) :
    value (sqr2Limbs a) % p = 2 * value a ^ 2 % p := by
  rw [sqr2Limbs_eq_addLimbs, value_addLimbs (limb_sqrLimbs_add_self_lt a), ← Nat.two_mul, ← Nat.mul_mod_mod,
    value_sqrLimbs_mod ha, Nat.mul_mod_mod]

/-! ## The laws of MUL modulo `p` -/

theorem bnd_mulLimbs (a b : FieldElement) : Bnd (mulLimbs a b) 54 :=
  fun k => (bnd_of_tight (tight_mulLimbs a b) k).trans (by norm_num)

/-- MUL is associative modulo `p`: a product, being `Tight`, is again a legal operand (R102). -/
theorem value_mulLimbs_assoc_mod {a b c : FieldElement} (ha : Bnd a 54) (hb : Bnd b 54) (hc : Bnd c 54) :
    value (mulLimbs a (mulLimbs b c)) % p = value (mulLimbs (mulLimbs a b) c) % p := by
  have hab : value (mulLimbs a b) ≡ value a * value b [MOD p] := value_mulLimbs_mod_of_bnd ha hb
  have hbc : value (mulLimbs b c) ≡ value b * value c [MOD p] := value_mulLimbs_mod_of_bnd hb hc
  calc value (mulLimbs a (mulLimbs b c))
      ≡ value a * value (mulLimbs b c) [MOD p] := value_mulLimbs_mod_of_bnd ha (bnd_mulLimbs b c)
    _ ≡ value a * (value b * value c) [MOD p] := hbc.mul_left _
    _ = value a * value b * value c := (Nat.mul_assoc _ _ _).symm
    _ ≡ value (mulLimbs a b) * value c [MOD p] := (hab.mul_right _).symm
    _ ≡ value (mulLimbs (mulLimbs a b) c) [MOD p] := (value_mulLimbs_mod_of_bnd (bnd_mulLimbs a b) hc).symm

/-- One is MUL's identity modulo `p` (R102). -/
theorem value_mulLimbs_one_mod {a : FieldElement} (ha : Bnd a 54) :
    value (mulLimbs a ⟨1, 0, 0, 0, 0⟩) % p = value a % p := by
  have hone : Bnd ⟨1, 0, 0, 0, 0⟩ 54 := by decide
  have hvalue : value ⟨1, 0, 0, 0, 0⟩ = 1 := rfl
  rw [value_mulLimbs_mod_of_bnd ha hone, hvalue, Nat.mul_one]

/-! ## The statements -/

/-- Settles O33: the accumulators are `mulAccs`, whose numbers are the coefficients of R100. -/
theorem mulAccumulatesTwentyFiveProducts : Obligations.MulAccumulatesTwentyFiveProducts := by
  intro rd rs1 rs2 s
  exact ⟨_, rfl, setReg_only s rd _, toNat_encode _, mulAccs (s.reg rs1) (s.reg rs2), toNat_acc_mulAccs _ _,
    reg_setReg_self s rd _⟩

/-- Settles O36: the accumulators are `sqrAccs`, whose numbers are the coefficients of R103. -/
theorem sqrAccumulatesFifteenProducts : Obligations.SqrAccumulatesFifteenProducts := by
  intro rd rs1 s
  exact ⟨_, rfl, setReg_only s rd _, toNat_encode _, sqrAccs (s.reg rs1), toNat_acc_sqrAccs _, reg_setReg_self s rd _⟩

/-- Settles O38: SQR2's limbs are ADD of SQR's limbs to themselves, an exact doubling because SQR's result is `Tight`;
the residue is that of SQR, which is MUL of equal operands. -/
theorem sqr2DoublesTheSquare : Obligations.Sqr2DoublesTheSquare := by
  intro rd rs1 s
  refine ⟨_, _, _, rfl, rfl, rfl, setReg_only s rd _, toNat_encode _, ?_⟩
  simp only [residue, reg_setReg_self]
  obtain ⟨hlimb0, hlimbs⟩ := sqr2Limbs_lt (s.reg rs1)
  refine ⟨toNat_limb_addLimbs _ _, sqr2Limbs_eq_addLimbs _,
    fun ha => ⟨toNat_limb_sqr2Limbs _, ?residue, hlimb0, hlimbs, bnd_sqr2Limbs _⟩⟩
  case residue => rw [value_sqr2Limbs_mod ha, ← Nat.mul_mod_mod, Nat.pow_mod, Nat.mul_mod_mod]

/-- Settles O35: each register is traced back to the limbs it was computed from; distribution is R94's law, settled
with the additive commands. -/
theorem multiplicativeLaws : Obligations.MultiplicativeLaws := by
  refine ⟨?associative, ?distributes, ?identity⟩
  case associative =>
    intro d a b c s t u t' u' hda hdb hdc ha hb hc ht hu ht' hu'
    have hleft : u.reg d = mulLimbs (s.reg a) (mulLimbs (s.reg b) (s.reg c)) := by
      rw [reg_of_exec rfl hu, resultLimbs, reg_of_exec_ne rfl ht hda, reg_of_exec rfl ht, resultLimbs]
    have hright : u'.reg d = mulLimbs (mulLimbs (s.reg a) (s.reg b)) (s.reg c) := by
      rw [reg_of_exec rfl hu', resultLimbs, reg_of_exec_ne rfl ht' hdc, reg_of_exec rfl ht', resultLimbs]
    rw [residue, residue, hleft, hright]
    exact value_mulLimbs_assoc_mod ha hb hc
  case distributes =>
    obtain ⟨-, -, hdistributes⟩ := additiveLaws
    intro d e a b c s t u t₁ t₂ t₃ hda hdb hdc hea heb hec hde ha hb hc hbc ht₁ ht₂ ht₃ ht hu
    exact hdistributes d e a b c s t u t₁ t₂ t₃ hda hdb hdc hea heb hec hde ha hb hc hbc ht hu ht₁ ht₂ ht₃
  case identity =>
    intro d a one s t ha hone h
    rw [residue, residue, reg_of_exec rfl h, resultLimbs, hone]
    exact value_mulLimbs_one_mod ha

end Sys2Proof.Machine
end

section
/-! The conditional move (`43_cmov.md` R115): the mask as a choice by `flag`, and CMOV's effect for both flag values. -/

namespace Sys2Proof.Machine

/-- `u64(0 − flag)` spreads the flag over all 64 bits (R115). -/
theorem zero_sub_setWidth_flag (flag : BitVec 1) :
    (0 : Word) - flag.setWidth 64 = if flag.toNat = 1 then 0xFFFFFFFFFFFFFFFF else 0 := by
  rcases flag_cases flag with rfl | rfl <;> decide

/-- Each limb of CMOV is the masked difference put back on the destination's limb (R115). -/
theorem limb_cmovLimbs (flag : BitVec 1) (f g : FieldElement) (k : Fin 5) :
    limb (cmovLimbs flag f g) k = limb f k ^^^
      ((if flag.toNat = 1 then 0xFFFFFFFFFFFFFFFF else 0) &&& (limb f k ^^^ limb g k)) := by
  rw [cmovLimbs, limb_ofLimbs, zero_sub_setWidth_flag]

/-- A selection between equal vectors is that vector, whatever the flag. -/
theorem cmovLimbs_self (flag : BitVec 1) (f : FieldElement) : cmovLimbs flag f f = f := by
  rw [cmovLimbs_eq, ite_self]

/-- Settles O39: the limbs are the masked formula by `limb_cmovLimbs`; that formula selects the source for flag 1 and the
destination's own limbs for flag 0 or equal registers, and writing a register its own limbs changes no state. -/
theorem cmovSelectsByFlag : Obligations.CmovSelectsByFlag := by
  intro rd rs1 flag s
  refine ⟨_, rfl, setReg_only s rd _, toNat_encode _, ?limbs, ?selected, ?kept, ?aliased, ?source⟩
  case limbs => exact fun k => by rw [reg_setReg_self, limb_cmovLimbs]
  case selected =>
    intro h
    obtain rfl : flag = 1 := BitVec.eq_of_toNat_eq h
    rw [reg_setReg_self, cmovLimbs_one]
  case kept =>
    intro h
    obtain rfl : flag = 0 := BitVec.eq_of_toNat_eq h
    rw [cmovLimbs_zero, setReg_reg_self]
  case aliased =>
    rintro rfl
    rw [cmovLimbs_self, setReg_reg_self]
  case source => exact fun h => reg_setReg_ne s _ h.symm

end Sys2Proof.Machine
end

section
/-! The codec (`44_codec.md` R120, R121, R123, R125): the number in a slot, FROMB's five windows, TOB's full reduction,
and the packing of limbs below `2^51` into 32 bytes. -/

namespace Sys2Proof.Machine

/-! ## The number in a slot -/

theorem le256_ofFn {n : Nat} (f : Fin n → Byte) :
    le256 (List.ofFn f) = ∑ j : Fin n, (f j).toNat * 2 ^ (8 * j.val) := by
  induction n with
  | zero => simp [le256]
  | succ n ih =>
    rw [List.ofFn_succ, le256, ih, Fin.sum_univ_succ, Finset.mul_sum]
    refine congrArg₂ (· + ·) (by simp) (Finset.sum_congr rfl fun j _ => ?_)
    rw [Fin.val_succ, Nat.mul_add, Nat.pow_add]
    ring

/-- The little-endian number in a slot, as the weighted sum of its bytes (R11, R41). -/
theorem le256_slotBytes (s : State) (k : Slot) :
    le256 (s.slotBytes k) = ∑ j : Fin 32, (s.byte (slotAddr k j)).toNat * 2 ^ (8 * j.val) := by
  rw [State.slotBytes, ← List.ofFn_eq_map, le256_ofFn]

/-- The number in a slot with its top byte set apart. -/
theorem le256_slotBytes_eq_add_top (s : State) (k : Slot) :
    le256 (s.slotBytes k) = ∑ j : Fin 31, (s.byte (slotAddr k j.castSucc)).toNat * 2 ^ (8 * j.val) +
      (s.byte (slotAddr k 31)).toNat * 2 ^ 248 := by
  rw [le256_slotBytes, Fin.sum_univ_castSucc]
  rfl

/-- Bit 7 of byte 31 is the only bit of a slot that weighs `2^255` (R121). -/
theorem le256_slotBytes_mod_congr {s : State} {k k' : Slot}
    (hlow : ∀ j : Fin 32, j ≠ 31 → s.byte (slotAddr k j) = s.byte (slotAddr k' j))
    (htop : (s.byte (slotAddr k 31)).toNat % 2 ^ 7 = (s.byte (slotAddr k' 31)).toNat % 2 ^ 7) :
    le256 (s.slotBytes k) % 2 ^ 255 = le256 (s.slotBytes k') % 2 ^ 255 := by
  have hbytes : ∀ j : Fin 31, s.byte (slotAddr k j.castSucc) = s.byte (slotAddr k' j.castSucc) :=
    fun j => hlow j.castSucc (Fin.castSucc_ne_last j)
  simp only [le256_slotBytes_eq_add_top, hbytes]
  omega

/-! ## Five limbs below `2^51` -/

theorem value_lt_of_bnd {x : FieldElement} (h : Bnd x 51) : value x < 2 ^ 255 := by
  obtain ⟨h0, h1, h2, h3, h4⟩ := forall_limb.mp h
  simp only [limb_zero, limb_one, limb_two, limb_three, limb_four] at h0 h1 h2 h3 h4
  simp only [value]
  omega

/-- Numbers in disjoint bit windows: their OR is their sum. -/
theorem or_shiftLeft_eq_add {lo m : Nat} (h : lo < 2 ^ m) (hi : Nat) : lo ||| hi <<< m = lo + hi * 2 ^ m := by
  rw [Nat.or_comm, ← Nat.shiftLeft_add_eq_or_of_lt h, Nat.shiftLeft_eq, Nat.add_comm]

/-- Numbers in disjoint bit windows: their XOR is their sum. -/
theorem xor_shiftLeft_eq_add {lo m : Nat} (h : lo < 2 ^ m) (hi : Nat) : lo ^^^ hi <<< m = lo + hi * 2 ^ m := by
  have hmod : (lo ^^^ hi <<< m) % 2 ^ m = lo := by
    rw [Nat.xor_mod_two_pow, Nat.mod_eq_of_lt h, Nat.shiftLeft_eq, Nat.mul_mod_left, Nat.xor_zero]
  have hdiv : (lo ^^^ hi <<< m) / 2 ^ m = hi := by
    rw [Nat.xor_div_two_pow, Nat.div_eq_of_lt h, Nat.shiftLeft_eq, Nat.mul_div_cancel _ (Nat.two_pow_pos m),
      Nat.zero_xor]
  rw [← Nat.mod_add_div' (lo ^^^ hi <<< m) (2 ^ m), hmod, hdiv]

/-- Limbs below `2^51` occupy disjoint windows, so packing them by OR or by XOR gives their value (R125). -/
theorem value_eq_or_xor {x : FieldElement} (h : Bnd x 51) :
    value x = x.v0.toNat ||| x.v1.toNat <<< 51 ||| x.v2.toNat <<< 102 ||| x.v3.toNat <<< 153 ||| x.v4.toNat <<< 204 ∧
    value x = x.v0.toNat ^^^ x.v1.toNat <<< 51 ^^^ x.v2.toNat <<< 102 ^^^ x.v3.toNat <<< 153 ^^^ x.v4.toNat <<< 204 := by
  obtain ⟨h0, h1, h2, h3, -⟩ := forall_limb.mp h
  simp only [limb_zero, limb_one, limb_two, limb_three] at h0 h1 h2 h3
  have h01 : x.v0.toNat + x.v1.toNat * 2 ^ 51 < 2 ^ 102 := by omega
  have h02 : x.v0.toNat + x.v1.toNat * 2 ^ 51 + x.v2.toNat * 2 ^ 102 < 2 ^ 153 := by omega
  have h03 : x.v0.toNat + x.v1.toNat * 2 ^ 51 + x.v2.toNat * 2 ^ 102 + x.v3.toNat * 2 ^ 153 < 2 ^ 204 := by omega
  constructor
  · rw [or_shiftLeft_eq_add h0, or_shiftLeft_eq_add h01, or_shiftLeft_eq_add h02, or_shiftLeft_eq_add h03, value]
  · rw [xor_shiftLeft_eq_add h0, xor_shiftLeft_eq_add h01, xor_shiftLeft_eq_add h02, xor_shiftLeft_eq_add h03, value]

/-! ## FROMB -/

theorem bnd_frombLimbs (n : Nat) : Bnd (frombLimbs n) 51 := by
  intro i
  rw [toNat_frombLimbs]
  exact Nat.mod_lt _ (Nat.two_pow_pos 51)

/-- The five windows cover bits 0 to 254 (R120). -/
theorem value_frombLimbs (n : Nat) : value (frombLimbs n) = n % 2 ^ 255 := by
  have h0 : (frombLimbs n).v0.toNat = n % 2 ^ 51 := by simpa using toNat_frombLimbs n 0
  have h1 : (frombLimbs n).v1.toNat = n / 2 ^ 51 % 2 ^ 51 := toNat_frombLimbs n 1
  have h2 : (frombLimbs n).v2.toNat = n / 2 ^ 102 % 2 ^ 51 := toNat_frombLimbs n 2
  have h3 : (frombLimbs n).v3.toNat = n / 2 ^ 153 % 2 ^ 51 := toNat_frombLimbs n 3
  have h4 : (frombLimbs n).v4.toNat = n / 2 ^ 204 % 2 ^ 51 := toNat_frombLimbs n 4
  simp only [value, h0, h1, h2, h3, h4]
  omega

/-- Bit 255 falls in no window (R120). -/
theorem frombLimbs_mod (n : Nat) : frombLimbs (n % 2 ^ 255) = frombLimbs n := by
  refine ext_limb fun i => BitVec.eq_of_toNat_eq ?_
  have hsplit : 2 ^ 255 = 2 ^ (51 * i.val) * 2 ^ (51 * (5 - i.val)) := by
    rw [← Nat.pow_add]; congr 1; omega
  have hdvd : 2 ^ 51 ∣ 2 ^ (51 * (5 - i.val)) := Nat.pow_dvd_pow 2 (by omega)
  rw [toNat_frombLimbs, toNat_frombLimbs, hsplit, Nat.mod_mul_right_div_self, Nat.mod_mod_of_dvd _ hdvd]

/-! ## TOB -/

theorem value_tobLimbs_lt (a : FieldElement) : value (tobLimbs a) < 2 ^ 255 := value_lt_of_bnd (tobLimbs_bnd a)

/-- Step B on a carried vector: nothing wraps, and the last carry says how often `2^255` fits into the value plus 19
(R124). -/
theorem toNat_trialCarry {t : FieldElement} (h : Tight t) : (trialCarry t).toNat = (value t + 19) / 2 ^ 255 := by
  obtain ⟨h0, h1, h2, h3, h4⟩ := h
  have h19 : (19 : Word).toNat = 19 := rfl
  simp only [trialCarry, toNat_shr51, BitVec.toNat_add, value, h19]
  omega

/-- Step D is the carry pass without the top carry's return to limb 0, so it drops multiples of `2^255` (R123). -/
theorem value_finalPass {x : FieldElement} (h : CarryOk x) : value (finalPass x) = value x % 2 ^ 255 := by
  obtain ⟨-, h1, h2, h3, h4, -⟩ := carryPass_exact x h
  have h0 : (finalPass x).v0.toNat = x.v0.toNat % 2 ^ 51 := toNat_and_mask51 x.v0
  have e1 : (finalPass x).v1 = (carryPass x).v1 := rfl
  have e2 : (finalPass x).v2 = (carryPass x).v2 := rfl
  have e3 : (finalPass x).v3 = (carryPass x).v3 := rfl
  have e4 : (finalPass x).v4 = (carryPass x).v4 := rfl
  simp only [value, h0, e1, e2, e3, e4, h1, h2, h3, h4]
  omega

theorem value_lt_of_tight {x : FieldElement} (h : Tight x) : value x < 2 ^ 255 + 2 ^ 18 := by
  obtain ⟨h0, h1, h2, h3, h4⟩ := h
  simp only [value]
  omega

theorem carryOk_of_tight {x : FieldElement} (h : Tight x) : CarryOk x := by
  obtain ⟨-, h1, h2, h3, h4⟩ := h
  exact ⟨by omega, by omega, by omega, by omega⟩

/-- The carry pass's condition does not mention limb 0 (R84). -/
theorem carryOk_withLimb0 {x : FieldElement} {w : Word} (h : CarryOk x) : CarryOk { x with v0 := w } := h

/-- What is added to limb 0 is added to the value. -/
theorem value_withLimb0 {x : FieldElement} {w : Word} {d : Nat} (h : w.toNat = x.v0.toNat + d) :
    value { x with v0 := w } = value x + d := by
  simp only [value, h]
  omega

/-- A value below `2^255 + 2^18` is below `p` exactly when adding 19 stays below `2^255`; otherwise adding 19 and dropping
`2^255` subtracts `p` (R124). -/
theorem add_trialCarry_mod {v : Nat} (h : v < 2 ^ 255 + 2 ^ 18) :
    (v + 19 * ((v + 19) / 2 ^ 255)) % 2 ^ 255 = v % p := by
  rw [p]
  rcases Nat.lt_or_ge (v + 19) (2 ^ 255) with hlt | hge
  · rw [Nat.div_eq_of_lt hlt]
    omega
  · have hq : (v + 19) / 2 ^ 255 = 1 := by omega
    rw [hq]
    omega

/-- TOB writes the residue of its carried operand, whatever the operand: the carry pass leaves a `Tight` vector, in which
nothing wraps in steps B to D (R124). -/
theorem value_tobLimbs (a : FieldElement) : value (tobLimbs a) = value (carryPass a) % p := by
  have htight := tight_carryPass_of_any a
  have hlt := value_lt_of_tight htight
  have hlimb0 : ((carryPass a).v0 + 19 * trialCarry (carryPass a)).toNat =
      (carryPass a).v0.toNat + 19 * ((value (carryPass a) + 19) / 2 ^ 255) := by
    rw [BitVec.toNat_add, toNat_mul19, toNat_trialCarry htight]
    obtain ⟨h0, -⟩ := htight
    omega
  rw [tobLimbs, value_finalPass (carryOk_withLimb0 (carryOk_of_tight htight)), value_withLimb0 hlimb0,
    add_trialCarry_mod hlt]

/-- The 32 bytes that TOB writes denote its value: nothing is cut off (R125). -/
theorem le256_bytes32_tobLimbs (a : FieldElement) : le256 (bytes32 (value (tobLimbs a))) = value (tobLimbs a) := by
  rw [le256_bytes32]
  exact Nat.mod_eq_of_lt ((value_tobLimbs_lt a).trans (by norm_num))

/-- Byte `j` of a slot that a number was written to. -/
theorem toNat_byte_setSlot_bytes32 (s : State) (k : Slot) (n : Nat) (j : Fin 32) :
    ((s.setSlot k (bytes32 n)).byte (slotAddr k j)).toNat = n / 2 ^ (8 * j.val) % 2 ^ 8 := by
  rw [byte_setSlot_self s k _ (length_bytes32 _), bytes32_getElem, BitVec.toNat_ofNat]

theorem exec_tob (k : Slot) (a : Reg) (s : State) :
    exec (.tob k a) s = .next (s.setSlot k (bytes32 (value (tobLimbs (s.reg a))))) := rfl

/-- The number in the slot that TOB wrote. -/
theorem le256_slotBytes_tob (s : State) (k : Slot) (x : FieldElement) :
    le256 ((s.setSlot k (bytes32 (value (tobLimbs x)))).slotBytes k) = value (tobLimbs x) := by
  rw [slotBytes_setSlot s k _ (length_bytes32 _), le256_bytes32_tobLimbs]

/-! ## The statements -/

/-- Settles O41: the limbs are `toNat_frombLimbs` at the number in the slot, and their value is `value_frombLimbs`. -/
theorem frombDecodesTheSlot : Obligations.FrombDecodesTheSlot := by
  intro rd k s
  refine ⟨_, rfl, setReg_only s rd _, toNat_encode _, ?_⟩
  rw [reg_setReg_self, ← le256_slotBytes]
  exact ⟨toNat_frombLimbs _, bnd_frombLimbs _, value_frombLimbs _⟩

/-- Settles O42: the result's value is `n mod 2^255` by `value_frombLimbs`, and its limbs depend on `n mod 2^255` only by
`frombLimbs_mod`. -/
theorem frombNeverValidates : Obligations.FrombNeverValidates := by
  refine ⟨fun rd k s => ⟨_, rfl, ?decoded⟩, fun rd k k' s t t' hlow htop h h' => ?topBit⟩
  case decoded =>
    have hval := value_frombLimbs (le256 (s.slotBytes k))
    rw [reg_setReg_self]
    refine ⟨bnd_frombLimbs _, value_lt_of_bnd (bnd_frombLimbs _), ?canonical, hval.ge.trans', ?limbsOfP, rfl⟩
    case canonical => rw [Canonical, hval, and_iff_right (bnd_frombLimbs _)]
    case limbsOfP =>
      intro hp
      rw [hp]
      decide
  case topBit =>
    rw [reg_of_exec rfl h, reg_of_exec rfl h', resultLimbs, resultLimbs, ← frombLimbs_mod,
      le256_slotBytes_mod_congr hlow htop, frombLimbs_mod]

/-- Settles O44: each word operation of steps A to D is its operation on numbers, with its own reduction, and step E
writes the value of the limbs. -/
theorem tobFollowsItsSteps : Obligations.TobFollowsItsSteps := by
  intro k rs1 s
  refine ⟨_, exec_tob k rs1 s, setSlot_only s k _ (length_bytes32 _), setSlot_reg s k _ rs1, toNat_encode _, ?_⟩
  rw [le256_slotBytes_tob]
  simp only [value, tobLimbs, finalPass, trialCarry, BitVec.toNat_add, toNat_and_mask51, toNat_shr51, toNat_mul19]
  rfl

/-- Settles O46: TOB's limbs are below `2^51` for every operand, so `value_eq_or_xor` and `value_tobLimbs_lt` apply, and
`value_tobLimbs` makes the value a remainder modulo `p`. -/
theorem tobPacksThirtyTwoBytes : Obligations.TobPacksThirtyTwoBytes := by
  intro k rs1 s
  obtain ⟨hor, hxor⟩ := value_eq_or_xor (tobLimbs_bnd (s.reg rs1))
  refine ⟨_, exec_tob k rs1 s, tobLimbs_bnd _, value_tobLimbs_lt _, hor, hxor, toNat_byte_setSlot_bytes32 s k _, ?top,
    fun _ => ?canonical⟩
  case top =>
    have hlt := value_tobLimbs_lt (s.reg rs1)
    have h31 : ((31 : Fin 32) : Nat) = 31 := rfl
    rw [toNat_byte_setSlot_bytes32, h31]
    omega
  case canonical =>
    rw [le256_slotBytes_tob, value_tobLimbs]
    exact Nat.mod_lt _ (by decide)

end Sys2Proof.Machine
end

section
/-! The one exception (`60_exceptions.md` R141, R143, R148): what a legal word does in one step and leaves of the status,
which steps answer `err`, and that commands neither read `ERR` and `ERRCMD` nor write them. -/

namespace Sys2Proof.Machine

/-! ## Legal words -/

theorem exec_keeps_status {i : Instr} {s t : State} (h : exec i s = .next t) :
    t.err = s.err ∧ t.errcmd = s.errcmd := by
  obtain ⟨rd, x, -, -, he⟩ | ⟨k, n, -, -, he⟩ := exec_cases i s
  · cases he.symm.trans h
    exact ⟨setReg_err s rd x, setReg_errcmd s rd x⟩
  · cases he.symm.trans h
    exact ⟨setSlot_err s k _, setSlot_errcmd s k _⟩

/-- A legal word runs its command, answers `ok` and keeps the status, whatever the registers hold (R141, R143). -/
theorem step_command {s : State} {w : CmdWord} {rest : List HostOp} {i : Instr} (hp : s.pending = .cmd w :: rest)
    (hd : decode w = .command i) :
    ∃ t, step s = .next t ∧ t.reply = .ok ∧ t.err = s.err ∧ t.errcmd = s.errcmd := by
  obtain ⟨t, hexec, hcmd⟩ := hostCmd_command hd { s with pending := rest }
  obtain ⟨herr, herrcmd⟩ := exec_keeps_status hexec
  exact ⟨t.respond .ok, (step_cons hp).trans hcmd, rfl, herr, herrcmd⟩

/-! ## Commands do not read the status -/

theorem resultLimbs_withStatus (i : Instr) (s : State) (e : Bool) (c : BitVec 32) :
    resultLimbs i { s with err := e, errcmd := c } = resultLimbs i s :=
  resultLimbs_congr (fun _ _ => rfl) (fun _ _ _ => rfl)

theorem setReg_withStatus (s : State) (e : Bool) (c : BitVec 32) (r : Reg) (x : FieldElement) :
    State.setReg { s with err := e, errcmd := c } r x = { s.setReg r x with err := e, errcmd := c } := rfl

theorem setSlot_withStatus (s : State) (e : Bool) (c : BitVec 32) (k : Slot) (bs : List Byte) :
    State.setSlot { s with err := e, errcmd := c } k bs = { s.setSlot k bs with err := e, errcmd := c } := rfl

/-- A changed status before a command is the same change after it: the status is no source of the result, and the write
of the result leaves it (R148). -/
theorem exec_withStatus {i : Instr} {s t : State} (h : exec i s = .next t) (e : Bool) (c : BitVec 32) :
    exec i { s with err := e, errcmd := c } = .next { t with err := e, errcmd := c } := by
  obtain ⟨rd, -, hd, -, -⟩ | ⟨k, -, -, hd, -⟩ := exec_cases i s
  · rw [exec_of_destReg hd, Host.Outcome.next.injEq] at h
    rw [exec_of_destReg hd, resultLimbs_withStatus, setReg_withStatus, h]
  · rw [exec_of_destSlot hd, Host.Outcome.next.injEq] at h
    rw [exec_of_destSlot hd, resultLimbs_withStatus, setSlot_withStatus, h]

/-! ## Every step -/

theorem hostOp_answers_next (o : HostOp) (s : State) : ∃ t, hostOp o s = .next t := by
  cases o with
  | cmd w =>
    cases hd : decode w with
    | illegal why => exact ⟨_, hostCmd_illegal hd s⟩
    | command i =>
      obtain ⟨t, -, hcmd⟩ := hostCmd_command hd s
      exact ⟨_, hcmd⟩
  | _ => exact ⟨_, rfl⟩

theorem step_answers_next (s : State) : ∃ t, step s = .next t := by
  cases hp : s.pending with
  | nil => exact ⟨s, step_idle hp⟩
  | cons o rest =>
    rw [step_cons hp]
    exact hostOp_answers_next o _

/-- Only a rejected command word is answered `err` (R141). -/
theorem hostOp_reply_err {o : HostOp} {s t : State} (h : hostOp o s = .next t) (herr : t.reply = .err) :
    ∃ w, o = .cmd w ∧ IllegalWord w := by
  rcases hostOp_cases _ _ _ h with ⟨x, rfl, rfl⟩ | ⟨w, why, rfl, hd, rfl⟩ | ⟨w, i, rd, x, rfl, -, -, -, -, rfl⟩ |
    ⟨w, i, k, n, rfl, -, -, -, -, rfl⟩ | ⟨a, b, rfl, rfl⟩ | ⟨a, rfl, rfl⟩ | ⟨r, i, v, rfl, rfl⟩ |
    ⟨r, i, rfl, rfl⟩ | ⟨n, rfl, rfl⟩
  case inr.inl => exact ⟨w, rfl, why, hd⟩
  all_goals simp at herr

/-! ## The statements -/

/-- Settles O7: `step_illegal` gives the whole effect, `step_command` the answer to a legal word, and `hostOp_reply_err`
that nothing else raises it. -/
theorem illegalWordRaisesIllegalCommand : Obligations.IllegalWordRaisesIllegalCommand := by
  refine ⟨fun s w rest hp hw => ?rejected, fun s w rest i hp hd => ?legal, fun s o rest t hp h herr => ?onlyThen⟩
  case rejected =>
    exact ⟨_, step_illegal hp hw, rfl, rfl, rfl, fun _ => rfl, fun _ => rfl, rfl, rfl, step_answers_next _⟩
  case legal =>
    obtain ⟨t, hstep, hok, -, -⟩ := step_command hp hd
    exact ⟨t, hstep, hok⟩
  case onlyThen =>
    rw [step_cons hp] at h
    exact hostOp_reply_err h herr

/-- Settles O10: `step_command` has no premise on the operands, and `STATUS` is read from `ERR` alone. -/
theorem legalCommandsReportNothing : Obligations.LegalCommandsReportNothing := by
  intro s w rest i hp hd
  obtain ⟨t, hstep, hok, herr, herrcmd⟩ := step_command hp hd
  exact ⟨t, hstep, hok, herr, herrcmd, by rw [State.statusWord, State.statusWord, herr]⟩

/-- Settles O11: `step_keeps_reported_error` keeps a reported error, `step_illegal` and `step_command` say how a word is
answered, and `exec_withStatus` that commands execute as if nothing were reported. -/
theorem errStaysAndCommandsStillExecute : Obligations.ErrStaysAndCommandsStillExecute := by
  refine ⟨?sticky, ?reset, ?secondIllegal, ?legal, fun i s t e c h => exec_withStatus h e c⟩
  case sticky => exact fun s t he hr h => (step_keeps_reported_error he hr h).1
  case reset => exact fun s x rest hp => ⟨_, step_reset hp, rfl⟩
  case secondIllegal => exact fun s w rest he hp hw => ⟨_, step_illegal hp hw, rfl, if_pos he, rfl⟩
  case legal =>
    intro s w rest i _ hp hd
    obtain ⟨t, hstep, hok, -, -⟩ := step_command hp hd
    exact ⟨t, hstep, hok⟩

end Sys2Proof.Machine
end

section
/-! The encoder against the decoder (`30_encoding.md` R62 to R66): each undoes the other, so the legal words are the
words of the commands, and counting commands counts them. -/

namespace Sys2Proof.Machine

/-! ## Encoding and decoding -/

theorem decode_encode (i : Instr) : decode (encode i) = .command i :=
  decode_eq_command.mpr (fieldsOf_wordOf (encodeFields i))

theorem encode_of_decode {w : CmdWord} {i : Instr} (h : decode w = .command i) : encode i = w := by
  rw [encode, ← decode_eq_command.mp h, wordOf_fieldsOf]

theorem encode_injective : Function.Injective encode := fun i j h =>
  Decoded.command.inj (by rw [← decode_encode i, h, decode_encode])

theorem not_illegalWord_iff {w : CmdWord} : ¬ IllegalWord w ↔ ∃ i, encode i = w := by
  rw [illegalWord_iff, not_not]
  constructor
  · rintro ⟨i, h⟩
    exact ⟨i, encode_of_decode h⟩
  · rintro ⟨i, rfl⟩
    exact ⟨i, decode_encode i⟩

/-! ## Counting commands -/

/-- The operands of a command, one summand per row of R63 from ADD to TOB. -/
abbrev Operands := (Reg × Reg × Reg) ⊕ (Reg × Reg × Reg) ⊕ (Reg × Reg) ⊕ (Reg × Reg × Reg) ⊕ (Reg × Reg) ⊕
  (Reg × Reg) ⊕ (Reg × Reg × BitVec 1) ⊕ (Reg × Slot) ⊕ (Slot × Reg)

/-- The operands a command is made of. -/
def operandsOf : Instr → Operands
  | .add rd rs1 rs2 => .inl (rd, rs1, rs2)
  | .sub rd rs1 rs2 => .inr (.inl (rd, rs1, rs2))
  | .neg rd rs1 => .inr (.inr (.inl (rd, rs1)))
  | .mul rd rs1 rs2 => .inr (.inr (.inr (.inl (rd, rs1, rs2))))
  | .sqr rd rs1 => .inr (.inr (.inr (.inr (.inl (rd, rs1)))))
  | .sqr2 rd rs1 => .inr (.inr (.inr (.inr (.inr (.inl (rd, rs1))))))
  | .cmov rd rs1 flag => .inr (.inr (.inr (.inr (.inr (.inr (.inl (rd, rs1, flag)))))))
  | .fromb rd slot => .inr (.inr (.inr (.inr (.inr (.inr (.inr (.inl (rd, slot))))))))
  | .tob slot rs1 => .inr (.inr (.inr (.inr (.inr (.inr (.inr (.inr (slot, rs1))))))))

/-- The command with these operands. -/
def commandOf : Operands → Instr
  | .inl (rd, rs1, rs2) => .add rd rs1 rs2
  | .inr (.inl (rd, rs1, rs2)) => .sub rd rs1 rs2
  | .inr (.inr (.inl (rd, rs1))) => .neg rd rs1
  | .inr (.inr (.inr (.inl (rd, rs1, rs2)))) => .mul rd rs1 rs2
  | .inr (.inr (.inr (.inr (.inl (rd, rs1))))) => .sqr rd rs1
  | .inr (.inr (.inr (.inr (.inr (.inl (rd, rs1)))))) => .sqr2 rd rs1
  | .inr (.inr (.inr (.inr (.inr (.inr (.inl (rd, rs1, flag))))))) => .cmov rd rs1 flag
  | .inr (.inr (.inr (.inr (.inr (.inr (.inr (.inl (rd, slot)))))))) => .fromb rd slot
  | .inr (.inr (.inr (.inr (.inr (.inr (.inr (.inr (slot, rs1)))))))) => .tob slot rs1

theorem commandOf_operandsOf (i : Instr) : commandOf (operandsOf i) = i := by
  cases i <;> rfl

theorem operandsOf_commandOf : Function.LeftInverse operandsOf commandOf := by
  rintro (_ | _ | _ | _ | _ | _ | _ | _ | _) <;> rfl

theorem card_operands : Fintype.card Operands = 14080 := by
  have hflag : Fintype.card (BitVec 1) = 2 := rfl
  simp only [Fintype.card_sum, Fintype.card_prod, Fintype.card_fin, hflag]

/-! ## The statements -/

/-- Settles O3: `decode_encode` and `encode_of_decode`; the number is `toNat_encode`, and the examples are evaluated. -/
theorem encodeIsTheInverseOfDecode : Obligations.EncodeIsTheInverseOfDecode :=
  ⟨toNat_encode, decode_encode, fun _ _ => encode_of_decode, rfl, rfl, rfl, rfl, rfl, rfl, rfl, rfl, rfl, rfl, rfl⟩

/-- Settles O5: the legal words are the words of the commands, and commands correspond to their operands, of which there
are 14080. -/
theorem legalWordsNumber14080 : Obligations.LegalWordsNumber14080 := by
  have hinj : Function.Injective fun x => encode (commandOf x) :=
    encode_injective.comp operandsOf_commandOf.injective
  refine ⟨(Finset.univ : Finset Operands).toList.map fun x => encode (commandOf x), ?nodup, ?length, fun w => ?legal⟩
  case nodup => exact (Finset.nodup_toList _).map hinj
  case length => rw [List.length_map, Finset.length_toList, Finset.card_univ, card_operands]
  case legal =>
    rw [not_illegalWord_iff]
    simp only [List.mem_map, Finset.mem_toList, Finset.mem_univ, true_and]
    constructor
    · rintro ⟨x, h⟩
      exact ⟨commandOf x, h⟩
    · rintro ⟨i, h⟩
      exact ⟨operandsOf i, by rw [commandOf_operandsOf, h]⟩

/-- Settles O1: the decoder is evaluated on each word. -/
theorem specWordsDecodeAsPrinted : Obligations.SpecWordsDecodeAsPrinted :=
  ⟨rfl, rfl, rfl, rfl, rfl, rfl, rfl, rfl, rfl, ⟨_, rfl⟩, ⟨_, rfl⟩, ⟨_, rfl⟩, ⟨_, rfl⟩⟩

end Sys2Proof.Machine
end

section
/-! Steps and whole runs (`10_state.md` R25 to R33; `20_memory.md` R47, R48; `70_reset_and_hazards.md` R160 to R166):
the invariant, what an operation that may not write a register or a byte leaves, and the inductions over a run. -/

namespace Sys2Proof.Machine

/-! ## Single steps -/

theorem hostOp_keeps_wf {o : HostOp} {s t : State} (h : hostOp o s = .next t) (hwf : Memory.wf s.buf = true) :
    Memory.wf t.buf = true := by
  rcases hostOp_cases _ _ _ h with ⟨x, rfl, rfl⟩ | ⟨w, why, rfl, hd, rfl⟩ | ⟨w, i, rd, x, rfl, -, -, -, -, rfl⟩ |
    ⟨w, i, k, n, rfl, -, -, -, -, rfl⟩ | ⟨a, b, rfl, rfl⟩ | ⟨a, rfl, rfl⟩ | ⟨r, i, v, rfl, rfl⟩ |
    ⟨r, i, rfl, rfl⟩ | ⟨n, rfl, rfl⟩
  case inl => rfl
  case inr.inr.inr.inl =>
    rw [respond_buf]
    exact wf_setSlot s k _ (length_bytes32 n) hwf
  case inr.inr.inr.inr.inl =>
    rw [respond_buf]
    exact wf_setByte s a b hwf
  all_goals simpa using hwf

theorem step_keeps_wf {s t : State} (h : step s = .next t) (hwf : Memory.wf s.buf = true) : Memory.wf t.buf = true := by
  cases hp : s.pending with
  | nil => cases (step_idle hp).symm.trans h; exact hwf
  | cons o rest => exact hostOp_keeps_wf ((step_cons hp).symm.trans h) hwf

/-- `ERRCMD` becomes nonzero only together with `ERR` (R31). -/
theorem step_keeps_errcmd_zero {s t : State} (h : step s = .next t) (hzero : s.err = false → s.errcmd = 0) :
    t.err = false → t.errcmd = 0 := by
  intro he
  obtain ⟨x, rest, -, -, hcmd⟩ | ⟨w, rest, -, -, herr, -⟩ | ⟨herr, hcmd⟩ := step_status_cases h
  · exact hcmd
  · exact absurd (herr.symm.trans he) (by decide)
  · rw [hcmd, hzero (herr ▸ he)]

/-- Only an illegal word raises `ERR` (R141). -/
theorem step_raises_err {s t : State} (h : step s = .next t) (hs : s.err = false) (ht : t.err = true) :
    ∃ w rest, s.pending = .cmd w :: rest ∧ IllegalWord w := by
  obtain ⟨x, rest, -, herr, -⟩ | ⟨w, rest, hp, hw, -, -⟩ | ⟨herr, -⟩ := step_status_cases h
  · exact absurd (herr.symm.trans ht) (by decide)
  · exact ⟨w, rest, hp, hw⟩
  · exact absurd ((hs.symm.trans herr.symm).trans ht) (by decide)

/-- Only a reset clears `ERR` (R148). -/
theorem step_clears_err {s t : State} (h : step s = .next t) (hs : s.err = true) (ht : t.err = false) :
    ∃ x rest, s.pending = .reset x :: rest := by
  by_contra hno
  push Not at hno
  obtain ⟨herr, -⟩ := step_keeps_reported_error hs hno h
  exact absurd (herr.symm.trans ht) (by decide)

/-- An operation that may not write a register keeps it (R25). -/
theorem hostOp_keeps_reg {o : HostOp} {s t : State} {r : Reg} (h : hostOp o s = .next t)
    (hw : writesReg r o = false) : t.reg r = s.reg r := by
  rcases hostOp_cases _ _ _ h with ⟨x, rfl, rfl⟩ | ⟨w, why, rfl, hd, rfl⟩ | ⟨w, i, rd, x, rfl, hi, hrd, -, -, rfl⟩ |
    ⟨w, i, k, n, rfl, -, -, -, -, rfl⟩ | ⟨a, b, rfl, rfl⟩ | ⟨a, rfl, rfl⟩ | ⟨r', i, v, rfl, rfl⟩ |
    ⟨r', i, rfl, rfl⟩ | ⟨n, rfl, rfl⟩
  case inl => cases hw
  case inr.inr.inl =>
    have hne : rd ≠ r := by simpa [writesReg, hi, hrd] using hw
    rw [respond_reg, reg_setReg_ne s x hne]
  case inr.inr.inr.inr.inr.inr.inl =>
    have hne : r' ≠ r := by simpa [writesReg] using hw
    rw [respond_reg, reg_setReg_ne s _ hne]
  all_goals simp

/-- An operation that may not write a byte keeps it (R33, R47). -/
theorem hostOp_keeps_byte {o : HostOp} {s t : State} {a : Addr} (h : hostOp o s = .next t)
    (hw : writesByte a o = false) : t.byte a = s.byte a := by
  rcases hostOp_cases _ _ _ h with ⟨x, rfl, rfl⟩ | ⟨w, why, rfl, hd, rfl⟩ | ⟨w, i, rd, x, rfl, -, -, -, -, rfl⟩ |
    ⟨w, i, k, n, rfl, hi, -, hk, -, rfl⟩ | ⟨a', b, rfl, rfl⟩ | ⟨a', rfl, rfl⟩ | ⟨r, i, v, rfl, rfl⟩ |
    ⟨r, i, rfl, rfl⟩ | ⟨n, rfl, rfl⟩
  case inl => cases hw
  case inr.inr.inr.inl =>
    have hne : a.val / 32 ≠ k.val := by simpa [writesByte, hi, hk] using hw
    rw [respond_byte, byte_setSlot s k _ (length_bytes32 n), dif_neg hne]
  case inr.inr.inr.inr.inl =>
    have hne : a' ≠ a := by simpa [writesByte] using hw
    rw [respond_byte, byte_setByte, if_neg hne.symm]
  all_goals simp

theorem exec_answers_next (i : Instr) (s : State) : ∃ t, exec i s = .next t := by
  obtain ⟨rd, x, -, -, he⟩ | ⟨k, n, -, -, he⟩ := exec_cases i s
  · exact ⟨_, he⟩
  · exact ⟨_, he⟩

/-! ## Runs -/

/-- What is presented in the first `k` steps from the next state is presented in the first `k + 1` from this one. -/
theorem mem_take_succ_of_step {k : Nat} {s t : State} {o : HostOp} (h : step s = .next t)
    (ho : o ∈ t.pending.take k) : o ∈ s.pending.take (k + 1) := by
  rw [step_pending h] at ho
  cases hp : s.pending with
  | nil => simp [hp] at ho
  | cons o' rest => exact List.mem_cons_of_mem o' (by simpa [hp] using ho)

theorem run_answers_next (k : Nat) (s : State) : ∃ t, Host.Core.run core k s = .next t := by
  induction k generalizing s with
  | zero => exact ⟨s, rfl⟩
  | succ k ih =>
    obtain ⟨t, ht⟩ := step_answers_next s
    rw [run_cons ht]
    exact ih t

section stable
variable {α : Type} {f : State → α} {writes : HostOp → Bool}
  (hpending : ∀ (s : State) os, f { s with pending := os } = f s)
  (hkeeps : ∀ {o s t}, hostOp o s = .next t → writes o = false → f t = f s)
include hpending hkeeps

/-- What an operation keeps unless it may write it, a step keeps unless it presents such an operation. -/
theorem step_keeps {s t : State} (h : step s = .next t) (hw : ∀ o ∈ s.pending.take 1, writes o = false) :
    f t = f s := by
  cases hp : s.pending with
  | nil => cases (step_idle hp).symm.trans h; rfl
  | cons o rest =>
    rw [step_cons hp] at h
    rw [hkeeps h (hw o (by simp [hp])), hpending]

/-- And a run keeps it while none of the operations it applies may write it. -/
theorem run_keeps {k : Nat} {s t : State} (h : Host.Core.run core k s = .next t)
    (hw : ∀ o ∈ s.pending.take k, writes o = false) : f t = f s := by
  induction k generalizing s with
  | zero => rw [run_zero h]
  | succ k ih =>
    obtain ⟨u, hstep, hrun⟩ := run_succ h
    have hfirst : ∀ o ∈ s.pending.take 1, writes o = false := fun o ho =>
      hw o (List.take_subset_take_left _ (Nat.succ_le_succ (Nat.zero_le k)) ho)
    rw [ih hrun fun o ho => hw o (mem_take_succ_of_step hstep ho), step_keeps hpending hkeeps hstep hfirst]

end stable

/-- A run that raises `ERR` applied an illegal word: the step at which `ERR` rises presented it (R166). -/
theorem run_raises_err {k : Nat} {s t : State} (h : Host.Core.run core k s = .next t) (hs : s.err = false)
    (ht : t.err = true) : ∃ w, .cmd w ∈ s.pending.take k ∧ IllegalWord w := by
  induction k generalizing s with
  | zero => exact absurd (hs.symm.trans (run_zero h ▸ ht)) (by decide)
  | succ k ih =>
    obtain ⟨u, hstep, hrun⟩ := run_succ h
    cases hu : u.err with
    | false =>
      obtain ⟨w, hmem, hw⟩ := ih hrun hu
      exact ⟨w, mem_take_succ_of_step hstep hmem, hw⟩
    | true =>
      obtain ⟨w, rest, hp, hw⟩ := step_raises_err hstep hs hu
      exact ⟨w, by simp [hp], hw⟩

/-! ## Reset contents -/

/-- After a reset every byte is free (R160). -/
theorem byte_hostReset (s : State) (a : Addr) : s.hostReset.byte a = Config.freeByte (s.resets + 1) a := rfl

/-- After a reset every limb is free (R160). -/
theorem limb_reg_hostReset (s : State) (r : Reg) (i : Fin 5) :
    limb (s.hostReset.reg r) i = Config.freeLimb (s.resets + 1) r i := reg_freeRegs (s.resets + 1) r i

/-! ## The statements -/

/-- Settles O14: `step_keeps_wf` and `step_keeps_errcmd_zero`. -/
theorem everyStepKeepsTheInvariant : Obligations.EveryStepKeepsTheInvariant := by
  intro s t hinv h
  obtain ⟨hwf, hzero⟩ := hinv
  exact ⟨step_keeps_wf h hwf, step_keeps_errcmd_zero h hzero⟩

/-- Settles O15, by `run_raises_err`. -/
theorem faultedRunPresentedAnIllegalWord : Obligations.FaultedRunPresentedAnIllegalWord :=
  fun _ _ _ hs h ht => run_raises_err h hs ht

/-- Settles O20: `run_keeps` for a register and for a byte. -/
theorem valuesAreStableUntilWritten : Obligations.ValuesAreStableUntilWritten := by
  intro k s t h
  exact ⟨fun r hw => run_keeps (f := fun s => s.reg r) (fun _ _ => rfl) hostOp_keeps_reg h hw,
    fun a hw => run_keeps (f := fun s => s.byte a) (fun _ _ => rfl) hostOp_keeps_byte h hw⟩

/-- Settles O12: `step_answers_next`, `exec_answers_next` and `run_answers_next`. -/
theorem everyStepAnswersANextState : Obligations.EveryStepAnswersANextState :=
  ⟨step_answers_next, exec_answers_next, run_answers_next⟩

/-- Settles O6: a step is `hostOp` of the first pending operation, and `hostCmd` of a legal word is `exec` answered
`ok`. -/
theorem stepRunsThePresentedCommand : Obligations.StepRunsThePresentedCommand := by
  refine ⟨?command, fun _ => step_idle, fun _ _ _ => step_cons, fun s i => ?presented⟩
  case command =>
    intro s w rest i t hp hd hexec
    obtain ⟨u, hu, hcmd⟩ := hostCmd_command hd { s with pending := rest }
    cases hu.symm.trans hexec
    exact (step_cons hp).trans hcmd
  case presented =>
    have hword : BitVec.ofNat 32 ((encode i).toNat % 2 ^ 32) = encode i := by
      rw [Nat.mod_eq_of_lt (encode i).isLt, BitVec.ofNat_toNat, BitVec.setWidth_eq]
    rw [State.withFetchWord, hword, present_pending]

/-- Settles O13: the reset buffer is the empty list, and `ERRCMD` is reset to 0. -/
theorem invariantHoldsAtReset : Obligations.InvariantHoldsAtReset := ⟨rfl, fun _ => rfl⟩

/-- Settles O16: `step_reset` gives the cleared status, `step_clears_err` that nothing else clears `ERR`. -/
theorem hostResetClearsStatus : Obligations.HostResetClearsStatus := by
  refine ⟨⟨rfl, rfl, rfl, rfl⟩, ?reset, fun s t hs h ht => step_clears_err h hs ht⟩
  case reset =>
    exact fun s x rest hp => ⟨_, step_reset hp, hostReset_err _, hostReset_statusWord _, hostReset_errcmd _,
      hostReset_pending _, step_answers_next _⟩

/-- Settles O17: `step_reset` does not mention the abandoned word. -/
theorem resetAbandonsTheRunningCommand : Obligations.ResetAbandonsTheRunningCommand := by
  intro s w rest hp
  refine ⟨?same, _, step_reset hp, hostReset_reply _, limb_reg_hostReset _, byte_hostReset _, hostReset_resets _⟩
  case same => rw [step_reset hp, step_reset rfl]

/-- Settles O18: a read only answers, so it keeps the block; a write is read-after-write. -/
theorem hostAccessesReadAndWriteOneDatum : Obligations.HostAccessesReadAndWriteOneDatum := by
  refine ⟨?writeByte, ?writeLimb, ?readByte, ?readLimb, ?readStatus⟩
  case writeByte =>
    intro s a b rest hp
    refine ⟨_, step_cons hp, ?written, fun x hx => ?others, fun _ => rfl, rfl, rfl, rfl, rfl⟩
    case written => rw [respond_byte, byte_setByte, if_pos rfl]
    case others => rw [respond_byte, byte_setByte, if_neg hx, withPending_byte]
  case writeLimb =>
    intro s r i v rest hp
    refine ⟨_, step_cons hp, ?written, fun j hj => ?others, fun r' hr => ?registers, fun _ => rfl, rfl, rfl, rfl, rfl⟩
    case written => rw [respond_reg, reg_setReg_self, limb_setLimb, if_pos rfl]
    case others => rw [respond_reg, reg_setReg_self, limb_setLimb, if_neg hj.symm, withPending_reg]
    case registers => rw [respond_reg, reg_setReg_ne _ _ hr.symm, withPending_reg]
  case readByte => exact fun s a rest hp => ⟨_, step_cons hp, rfl, respond_sameBlock s rest _⟩
  case readLimb => exact fun s r i rest hp => ⟨_, step_cons hp, rfl, respond_sameBlock s rest _⟩
  case readStatus =>
    intro s n rest hp
    have hstatus : s.statusReg n = if n = 0 then s.statusWord else s.errcmd := by
      fin_cases n <;> rfl
    exact ⟨_, step_readStatus hp, congrArg Reply.status hstatus, respond_sameBlock s rest _⟩

end Sys2Proof.Machine
end

section
/-! The datapath's inferences (`40_datapath_primitives.md` R84, R87; `41_add_sub_neg.md` R92; `42_mul_sqr.md` R101,
R104): the carry pass and the fold with nothing wrapped, SUB's bounds, and MUL with zero, with one and beyond its bound. -/

namespace Sys2Proof.Machine

/-! ## The carry pass -/

theorem topCarry_le {x : FieldElement} (h : CarryOk x) : topCarry x ≤ 2 ^ 13 - 1 := by
  obtain ⟨-, -, -, -, -, hu⟩ := carryPass_exact x h
  rw [topCarry]
  omega

/-- Limb 0 of a carried vector is a masked limb plus 19 times the top carry (R84). -/
theorem carryPass_v0_lt {x : FieldElement} (h : CarryOk x) :
    (carryPass x).v0.toNat < 2 ^ 51 + 19 * topCarry x := by
  obtain ⟨h0, -⟩ := carryPass_exact x h
  rw [h0, ← topCarry]
  have := Nat.mod_lt x.v0.toNat (Nat.two_pow_pos 51)
  omega

/-- Limbs below `2^51` have no carry to pass on (R84). -/
theorem carryPass_eq_self {x : FieldElement} (h : Bnd x 51) : carryPass x = x := by
  obtain ⟨e0, e1, e2, e3, e4, -⟩ := carryPass_exact x (carryOk_of_bnd fun k => (h k).trans (by norm_num))
  obtain ⟨h0, h1, h2, h3, h4⟩ := forall_limb.mp h
  simp only [limb_zero, limb_one, limb_two, limb_three, limb_four] at h0 h1 h2 h3 h4
  simp only [Nat.div_eq_of_lt, Nat.mod_eq_of_lt, Nat.add_zero, Nat.mul_zero, h0, h1, h2, h3, h4] at e0 e1 e2 e3 e4
  exact ext_limb (forall_limb.mpr ⟨BitVec.eq_of_toNat_eq e0, BitVec.eq_of_toNat_eq e1, BitVec.eq_of_toNat_eq e2,
    BitVec.eq_of_toNat_eq e3, BitVec.eq_of_toNat_eq e4⟩)

theorem topCarry_le_of_bnd {x : FieldElement} (h : Bnd x 54) : topCarry x ≤ 8 := by
  obtain ⟨h0, h1, h2, h3, h4⟩ := forall_limb.mp h
  simp only [limb_zero, limb_one, limb_two, limb_three, limb_four] at h0 h1 h2 h3 h4
  rw [topCarry]
  omega

/-! ## SUB -/

theorem kConst_lt (k : Fin 5) : (kConst k).toNat < 2 ^ 52 := by
  rw [toNat_kConst]
  split <;> norm_num

section sub
variable {a b : FieldElement} (hb : CarryOk b) (ha : ∀ k, (limb a k).toNat < 2 ^ 64 - 2 ^ 52)
include hb ha

/-- SUB adds at most the constant to a limb (R92). -/
theorem limb_subLimbs_le (k : Fin 5) : (limb (subLimbs a b) k).toNat ≤ (limb a k).toNat + (kConst k).toNat :=
  (Nat.le_add_right _ _).trans_eq (toNat_limb_subLimbs hb ha k)

theorem limb_subLimbs_lt (k : Fin 5) : (limb (subLimbs a b) k).toNat < (limb a k).toNat + 2 ^ 52 :=
  (limb_subLimbs_le hb ha k).trans_lt (Nat.add_lt_add_left (kConst_lt k) _)

/-- SUB subtracts modulo `p` (R92). -/
theorem value_subLimbs_add_mod : (value (subLimbs a b) + value b) % p = value a % p := by
  rw [value_subLimbs hb ha, Nat.add_mul_mod_self_right]

end sub

/-- Limbs grow by at most one bit in SUB when they have at least 52 (R92). -/
theorem bnd_subLimbs {a b : FieldElement} {n : Nat} (hb : CarryOk b) (ha : Bnd a n) (hlo : 52 ≤ n) (hhi : n ≤ 63) :
    Bnd (subLimbs a b) (n + 1) := by
  have h52 : 2 ^ 52 ≤ 2 ^ n := Nat.pow_le_pow_right two_pos hlo
  have h63 : 2 ^ n ≤ 2 ^ 63 := Nat.pow_le_pow_right two_pos hhi
  intro k
  calc (limb (subLimbs a b) k).toNat
      < (limb a k).toNat + 2 ^ 52 := limb_subLimbs_lt hb (fun k => (ha k).trans_le (h63.trans (by norm_num))) k
    _ ≤ 2 ^ n + 2 ^ n := Nat.add_le_add (ha k).le h52
    _ = 2 ^ (n + 1) := by rw [Nat.pow_succ, Nat.mul_two]

/-! ## MUL with zero, with one, and beyond its bound -/

/-- MUL's operand condition in its general form bounds every product of two limbs (R101). -/
theorem limb_mul_limb_lt_of_add_le {a b : FieldElement} {m n : Nat} (hmn : m + n ≤ 108) (ha : Bnd a m) (hb : Bnd b n)
    (i j : Fin 5) : (limb a i).toNat * (limb b j).toNat < 2 ^ 108 :=
  calc (limb a i).toNat * (limb b j).toNat < 2 ^ m * 2 ^ n := Nat.mul_lt_mul'' (ha i) (hb j)
    _ = 2 ^ (m + n) := (Nat.pow_add 2 m n).symm
    _ ≤ 2 ^ 108 := Nat.pow_le_pow_right two_pos hmn

@[simp] theorem widen_zero (x : Word) : widen x 0#64 = 0#128 := by simp [widen]
@[simp] theorem zero_widen (x : Word) : widen 0#64 x = 0#128 := by simp [widen]
@[simp] theorem one_widen (x : Word) : widen 1#64 x = x.setWidth 128 := by simp [widen]
@[simp] theorem widen_one (x : Word) : widen x 1#64 = x.setWidth 128 := by simp [widen]

theorem reduce128_zeros : reduce128 ⟨0, 0, 0, 0, 0⟩ = ⟨0, 0, 0, 0, 0⟩ := by decide

theorem mulLimbs_zeros_left (b : FieldElement) : mulLimbs ⟨0, 0, 0, 0, 0⟩ b = ⟨0, 0, 0, 0, 0⟩ := by
  have haccs : mulAccs ⟨0, 0, 0, 0, 0⟩ b = ⟨0, 0, 0, 0, 0⟩ := by simp [mulAccs]
  rw [mulLimbs, haccs, reduce128_zeros]

theorem mulLimbs_zeros_right (a : FieldElement) : mulLimbs a ⟨0, 0, 0, 0, 0⟩ = ⟨0, 0, 0, 0, 0⟩ := by
  have haccs : mulAccs a ⟨0, 0, 0, 0, 0⟩ = ⟨0, 0, 0, 0, 0⟩ := by simp [mulAccs]
  rw [mulLimbs, haccs, reduce128_zeros]

/-- The accumulators that hold five limbs. -/
def accsOf (x : FieldElement) : Accs :=
  ⟨x.v0.setWidth 128, x.v1.setWidth 128, x.v2.setWidth 128, x.v3.setWidth 128, x.v4.setWidth 128⟩

theorem mulAccs_one_left (b : FieldElement) : mulAccs ⟨1, 0, 0, 0, 0⟩ b = accsOf b := by
  simp [mulAccs, accsOf]

theorem mulAccs_one_right (a : FieldElement) : mulAccs a ⟨1, 0, 0, 0, 0⟩ = accsOf a := by
  simp [mulAccs, accsOf]

/-- An accumulator that holds a limb below `2^51` has no carry. -/
theorem accCarry_setWidth {x : Word} (h : x.toNat < 2 ^ 51) : accCarry (x.setWidth 128) = 0#64 := by
  apply BitVec.eq_of_toNat_eq
  rw [toNat_accCarry, BitVec.toNat_setWidth, BitVec.toNat_zero]
  omega

theorem accLow_setWidth {x : Word} (h : x.toNat < 2 ^ 51) : accLow (x.setWidth 128) = x := by
  apply BitVec.eq_of_toNat_eq
  rw [toNat_accLow, BitVec.toNat_setWidth]
  omega

/-- Limbs below `2^51` pass `Reduce128` unchanged: neither stage finds a carry. -/
theorem reduce128_accsOf {x : FieldElement} (h : LimbReduced x) : reduce128 (accsOf x) = x := by
  have hfold : fold128 (accsOf x) = x := by
    obtain ⟨h0, h1, h2, h3, h4⟩ := forall_limb.mp h
    simp only [limb_zero, limb_one, limb_two, limb_three, limb_four] at h0 h1 h2 h3 h4
    simp only [fold128, accsOf, accLow_setWidth, accCarry_setWidth, h0, h1, h2, h3, h4, BitVec.mul_zero,
      BitVec.add_zero]
  rw [reduce128, hfold, carryPass_eq_self h]

/-- Limbs of `2^55 − 1` are beyond MUL's bound: accumulators exceed `2^115`, so the fold truncates carries (R87,
R101). -/
theorem value_mulLimbs_beyond_bound :
    value (mulLimbs (ofLimbs fun _ => 0x7FFFFFFFFFFFFF) (ofLimbs fun _ => 0x7FFFFFFFFFFFFF)) % p ≠
      value (ofLimbs fun _ => 0x7FFFFFFFFFFFFF) % p * (value (ofLimbs fun _ => 0x7FFFFFFFFFFFFF) % p) % p := by
  decide

/-- At a limb of `2^59` SQR's `38·a[1]` wraps, MUL's `19·a[1]` does not (R104). -/
theorem sqrLimbs_ne_mulLimbs :
    sqrLimbs ⟨0, 0x800000000000000, 0, 0, 1⟩ ≠
      mulLimbs ⟨0, 0x800000000000000, 0, 0, 1⟩ ⟨0, 0x800000000000000, 0, 0, 1⟩ := by
  decide

/-! ## The statements -/

/-- Settles O25: `value_carryPass` and `tight_carryPass` under the condition, `carryPass_eq_self` and
`topCarry_le_of_bnd` for smaller limbs. -/
theorem carryPassKeepsTheResidue : Obligations.CarryPassKeepsTheResidue := by
  refine fun x => ⟨fun h => ?carried, carryPass_eq_self, fun h => ?loose⟩
  case carried =>
    have htop := topCarry_le h
    have htight := tight_carryPass h
    exact ⟨value_carryPass h, value_carryPass_mod h, htop, htight, (carryPass_v0_lt h).trans_le (by omega),
      value_lt_of_tight htight⟩
  case loose =>
    have htop := topCarry_le_of_bnd h
    exact ⟨htop, (carryPass_v0_lt (carryOk_of_bnd h)).trans_le (by omega)⟩

/-- Settles O27, by `value_fold128` and the carry pass that follows the fold. -/
theorem reduce128KeepsTheResidue : Obligations.Reduce128KeepsTheResidue := by
  intro A c l S hacc htop hcarry
  exact ⟨value_fold128 hacc htop hcarry, value_reduce128_mod hacc htop hcarry, tight_carryPass_of_any _⟩

/-- Settles O30: the exact limbs and value of SUB, with its bounds. -/
theorem subSubtractsModP : Obligations.SubSubtractsModP := by
  intro rd rs1 rs2 s
  refine ⟨_, rfl, setReg_only s rd _, toNat_encode _, ?_⟩
  simp only [residue, reg_setReg_self]
  refine ⟨fun k => ?wrapped, fun hb ha => ⟨toNat_limb_subLimbs hb ha, value_subLimbs hb ha, ?residue,
    limb_subLimbs_lt hb ha, fun h => bnd_subLimbs hb h (by norm_num) (by norm_num),
    fun h => bnd_subLimbs hb (bnd_of_tight h) (by norm_num) (by norm_num)⟩⟩
  case wrapped => rw [subLimbs, limb_ofLimbs, BitVec.toNat_sub, BitVec.toNat_add, Nat.add_comm]
  case residue => rw [← Nat.add_mod, value_subLimbs_add_mod hb ha]

/-- Settles O34: `value_mulLimbs_mod` with the general bound on products; zeros and one pass through the accumulators;
beyond the bound the limbs are evaluated. -/
theorem mulMultipliesModP : Obligations.MulMultipliesModP := by
  intro rd rs1 rs2 s
  refine ⟨_, rfl, ?_⟩
  simp only [residue, reg_setReg_self]
  refine ⟨fun m n hmn hm ha hb => ⟨?product, tight_mulLimbs _ _⟩, ?zeros, ?oneLeft, ?oneRight, ?beyond⟩
  case product =>
    have h59 : ∀ i, (limb (s.reg rs1) i).toNat < 2 ^ 59 := fun i =>
      (ha i).trans_le (Nat.pow_le_pow_right two_pos hm)
    rw [value_mulLimbs_mod h59 (limb_mul_limb_lt_of_add_le hmn ha hb), Nat.mul_mod]
  case zeros =>
    rintro (h | h)
    · rw [h, mulLimbs_zeros_left]
    · rw [h, mulLimbs_zeros_right]
  case oneLeft =>
    intro h hb
    rw [h, mulLimbs, mulAccs_one_left, reduce128_accsOf hb]
  case oneRight =>
    intro h ha
    rw [h, mulLimbs, mulAccs_one_right, reduce128_accsOf ha]
  case beyond =>
    intro h h'
    rw [h, h']
    exact value_mulLimbs_beyond_bound

/-- Settles O37: within the bound SQR's limbs are MUL's, so the two commands write the same. -/
theorem sqrAgreesWithMul : Obligations.SqrAgreesWithMul := by
  intro rd rs1 s
  refine ⟨_, _, rfl, rfl, fun h => ?agree, fun h => ?differ⟩
  case agree =>
    have hsame : sqrLimbs (s.reg rs1) = mulLimbs (s.reg rs1) (s.reg rs1) :=
      sqrLimbs_eq_mulLimbs fun k => (h k).trans (by norm_num)
    simp only [residue, reg_setReg_self]
    exact ⟨by rw [hsame], by rw [value_sqrLimbs_mod h, ← Nat.pow_mod], tight_sqrLimbs _⟩
  case differ =>
    rw [reg_setReg_self, reg_setReg_self, h]
    exact sqrLimbs_ne_mulLimbs

end Sys2Proof.Machine
end

section
/-! The codec's inferences (`44_codec.md` R122, R124, R126, R127): FROMB's bit windows, TOB as the reduction modulo `p`,
the round trips of the two, and the canonicity test by two slots. -/

namespace Sys2Proof.Machine

/-! ## FROMB's windows -/

section slotBytes
variable (s : State) (k : Slot)

/-- From byte `j` of a slot on, its number is that byte and 256 times what follows (R41). -/
theorem le256_slotBytes_div (j : Nat) (hj : j < 32) :
    le256 (s.slotBytes k) / 2 ^ (8 * j) =
      (s.byte (slotAddr k ⟨j, hj⟩)).toNat + le256 (s.slotBytes k) / 2 ^ (8 * (j + 1)) * 2 ^ 8 := by
  have hdigit := le256_digit (s.slotBytes k) j (by simpa using hj)
  rw [slotBytes_getElem] at hdigit
  rw [← hdigit, Nat.mul_add, Nat.pow_add, ← Nat.div_div_eq_div_mul, Nat.mod_add_div']

/-- The same for seven bytes. -/
theorem le256_slotBytes_div_seven (j : Nat) (hj : j + 6 < 32) :
    le256 (s.slotBytes k) / 2 ^ (8 * j) =
      (s.byte (slotAddr k ⟨j, by omega⟩)).toNat + (s.byte (slotAddr k ⟨j + 1, by omega⟩)).toNat * 2 ^ 8 +
      (s.byte (slotAddr k ⟨j + 2, by omega⟩)).toNat * 2 ^ 16 + (s.byte (slotAddr k ⟨j + 3, by omega⟩)).toNat * 2 ^ 24 +
      (s.byte (slotAddr k ⟨j + 4, by omega⟩)).toNat * 2 ^ 32 + (s.byte (slotAddr k ⟨j + 5, by omega⟩)).toNat * 2 ^ 40 +
      (s.byte (slotAddr k ⟨j + 6, hj⟩)).toNat * 2 ^ 48 + le256 (s.slotBytes k) / 2 ^ (8 * (j + 7)) * 2 ^ 56 := by
  have hstep := le256_slotBytes_div s k
  rw [hstep j (by omega), hstep (j + 1) (by omega), hstep (j + 2) (by omega), hstep (j + 3) (by omega),
    hstep (j + 4) (by omega), hstep (j + 5) (by omega), hstep (j + 6) hj]
  ring

end slotBytes

/-- Limb `i` of FROMB begins `r` bits into byte `j`. -/
theorem toNat_frombLimbs_at (n : Nat) (i : Fin 5) (j r : Nat) (h : 51 * i.val = 8 * j + r) :
    (limb (frombLimbs n) i).toNat = n / 2 ^ (8 * j) / 2 ^ r % 2 ^ 51 := by
  rw [toNat_frombLimbs, h, Nat.pow_add, Nat.div_div_eq_div_mul]

/-! ## TOB and the round trips -/

/-- TOB reduces modulo `p` within its precondition (R124). -/
theorem value_tobLimbs_of_carryOk {a : FieldElement} (h : CarryOk a) : value (tobLimbs a) = value a % p := by
  rw [value_tobLimbs, value_carryPass_mod h]

/-- Five limbs of `2^64 − 1` are beyond TOB's precondition: their carry pass wraps (R124). -/
theorem value_tobLimbs_beyond_bound :
    value (tobLimbs (ofLimbs fun _ => 0xFFFFFFFFFFFFFFFF)) ≠ value (ofLimbs fun _ => 0xFFFFFFFFFFFFFFFF) % p := by
  decide

/-- Limbs below `2^51` are the windows of their value, so FROMB's limbs of the value are the limbs themselves. -/
theorem frombLimbs_value {x : FieldElement} (h : Bnd x 51) : frombLimbs (value x) = x := by
  obtain ⟨h0, h1, h2, h3, h4⟩ := forall_limb.mp h
  simp only [limb_zero, limb_one, limb_two, limb_three, limb_four] at h0 h1 h2 h3 h4
  have hwindows : value x / 2 ^ 0 % 2 ^ 51 = x.v0.toNat ∧ value x / 2 ^ 51 % 2 ^ 51 = x.v1.toNat ∧
      value x / 2 ^ 102 % 2 ^ 51 = x.v2.toNat ∧ value x / 2 ^ 153 % 2 ^ 51 = x.v3.toNat ∧
      value x / 2 ^ 204 % 2 ^ 51 = x.v4.toNat := by
    simp only [value]
    omega
  have hlimb : ∀ i, value x / 2 ^ (51 * i.val) % 2 ^ 51 = (limb x i).toNat := forall_limb.mpr hwindows
  exact ext_limb fun i => BitVec.eq_of_toNat_eq ((toNat_frombLimbs _ i).trans (hlimb i))

theorem p_lt : p < 2 ^ 255 := by decide

/-- FROMB, then TOB of the same register: the slot receives the number read, without bit 255, modulo `p` (R126). -/
theorem slotBytes_fromb_tob {s t u : State} {rd : Reg} {k k' : Slot} (ht : exec (.fromb rd k) s = .next t)
    (hu : exec (.tob k' rd) t = .next u) : u.slotBytes k' = bytes32 (le256 (s.slotBytes k) % 2 ^ 255 % p) := by
  have hok : CarryOk (frombLimbs (le256 (s.slotBytes k))) :=
    carryOk_of_bnd fun i => (bnd_frombLimbs _ i).trans (by norm_num)
  rw [exec_tob, reg_of_exec rfl ht, resultLimbs, value_tobLimbs_of_carryOk hok, value_frombLimbs] at hu
  cases hu
  exact slotBytes_setSlot t k' _ (length_bytes32 _)

/-- Below `p` the bytes come back unchanged (R126). -/
theorem bytes32_of_lt_p {s : State} {k : Slot} (h : le256 (s.slotBytes k) < p) :
    bytes32 (le256 (s.slotBytes k) % 2 ^ 255 % p) = s.slotBytes k := by
  rw [Nat.mod_eq_of_lt (h.trans p_lt), Nat.mod_eq_of_lt h, bytes32_le256 _ (length_slotBytes s k)]

/-- TOB, then FROMB of the same slot: the register receives the limbs of the residue (R126). -/
theorem reg_tob_fromb {s t u : State} {a d : Reg} {k : Slot} (hok : CarryOk (s.reg a))
    (ht : exec (.tob k a) s = .next t) (hu : exec (.fromb d k) t = .next u) :
    u.reg d = frombLimbs (value (s.reg a) % p) := by
  cases (exec_tob k a s).symm.trans ht
  rw [reg_of_exec rfl hu, resultLimbs, le256_slotBytes_tob, value_tobLimbs_of_carryOk hok]

theorem value_frombLimbs_mod_p (n : Nat) : value (frombLimbs (n % p)) = n % p := by
  have hlt : n % p < p := Nat.mod_lt n (by decide)
  rw [value_frombLimbs, Nat.mod_eq_of_lt (hlt.trans p_lt)]

theorem canonical_frombLimbs_mod_p (n : Nat) : Canonical (frombLimbs (n % p)) :=
  ⟨bnd_frombLimbs _, (value_frombLimbs_mod_p n).trans_lt (Nat.mod_lt n (by decide))⟩

theorem slotBytes_fromb_tob_kept {s t u : State} {rd : Reg} {k k' : Slot} (hne : k ≠ k')
    (ht : exec (.fromb rd k) s = .next t) (hu : exec (.tob k' rd) t = .next u) : u.slotBytes k = s.slotBytes k := by
  refine slotBytes_congr fun j => ?_
  rw [byte_exec_tob_other_slot hu hne]
  cases ht
  rfl

/-! ## The statements -/

/-- Settles O43: limbs begin 0, 3, 6, 1 and 4 bits into bytes 0, 6, 12, 19 and 25; a window of 51 bits from there is
seven bytes long, or eight where it begins 6 bits in. -/
theorem frombBitWindows : Obligations.FrombBitWindows := by
  intro rd k s
  refine ⟨_, rfl, ?_⟩
  simp only [reg_setReg_self]
  have hseven := le256_slotBytes_div_seven s k
  have hwindow := toNat_frombLimbs_at (le256 (s.slotBytes k))
  refine ⟨(hwindow 0 0 0 rfl).trans ?_, (hwindow 1 6 3 rfl).trans ?_, (hwindow 2 12 6 rfl).trans ?_,
    (hwindow 3 19 1 rfl).trans ?_, (hwindow 4 25 4 rfl).trans ?_⟩
  · have hbytes := hseven 0 (by norm_num)
    simp only [Nat.reduceAdd, Nat.reduceMul, Fin.reduceFinMk] at hbytes ⊢
    omega
  · have hbytes := hseven 6 (by norm_num)
    simp only [Nat.reduceAdd, Nat.reduceMul, Fin.reduceFinMk] at hbytes ⊢
    omega
  · have hbytes := hseven 12 (by norm_num)
    have hlast := le256_slotBytes_div s k 19 (by norm_num)
    simp only [Nat.reduceAdd, Nat.reduceMul, Fin.reduceFinMk] at hbytes hlast ⊢
    omega
  · have hbytes := hseven 19 (by norm_num)
    simp only [Nat.reduceAdd, Nat.reduceMul, Fin.reduceFinMk] at hbytes ⊢
    omega
  · have hbytes := hseven 25 (by norm_num)
    simp only [Nat.reduceAdd, Nat.reduceMul, Fin.reduceFinMk] at hbytes ⊢
    omega

/-- Settles O45: `value_tobLimbs_of_carryOk`, and an evaluation beyond the precondition. -/
theorem tobWritesTheCanonicalEncoding : Obligations.TobWritesTheCanonicalEncoding := by
  intro k rs1 s
  refine ⟨_, exec_tob k rs1 s, ?_⟩
  rw [le256_slotBytes_tob]
  refine ⟨value_tobLimbs_of_carryOk, fun h => ?beyond⟩
  case beyond =>
    rw [h]
    exact value_tobLimbs_beyond_bound

/-- Settles O47: `slotBytes_fromb_tob` and `reg_tob_fromb`; a `Canonical` vector is FROMB's of its own value. -/
theorem codecRoundTrips : Obligations.CodecRoundTrips := by
  refine ⟨fun s t u rd k k' ht hu => ?fromb, fun s t u a d k hok ht hu => ?tob⟩
  case fromb =>
    rw [slotBytes_fromb_tob ht hu]
    refine ⟨rfl, bytes32_of_lt_p, fun h => ?_, fun h => ?_, fun h => ?_⟩ <;> rw [h] <;> rfl
  case tob =>
    have hcanonical := canonical_frombLimbs_mod_p (value (s.reg a))
    rw [residue, reg_tob_fromb hok ht hu, value_frombLimbs_mod_p, Nat.mod_mod]
    refine ⟨hcanonical, rfl, fun h => h ▸ hcanonical, fun h => ?unchanged⟩
    case unchanged =>
      obtain ⟨hbnd, hlt⟩ := h
      rw [Nat.mod_eq_of_lt hlt, frombLimbs_value hbnd]

/-- Settles O48: the second slot holds the number of the first modulo `2^255` and `p`, which is that number only when
it is below `p`. -/
theorem hostCanDetectNonCanonicalInput : Obligations.HostCanDetectNonCanonicalInput := by
  intro s t u rd k k' hne ht hu
  rw [slotBytes_fromb_tob_kept hne ht hu, slotBytes_fromb_tob ht hu]
  constructor
  · intro h
    have hlt : le256 (s.slotBytes k) % 2 ^ 255 % p < p := Nat.mod_lt _ (by decide)
    rw [h, le256_bytes32]
    exact (Nat.mod_le _ _).trans_lt hlt
  · exact fun h => (bytes32_of_lt_p h).symm

end Sys2Proof.Machine
end

section
/-! The block as a whole (`70_reset_and_hazards.md` R164 to R166): what a command's result is modulo `p` and how large
its limbs are, the bound tracking over a program, and sums of reduced values. -/

namespace Sys2Proof.Machine

/-! ## Residues -/

/-- Solving a congruence `x + y ≡ z` for the residue of `x`. -/
theorem mod_eq_add_sub_mod {x y z n : Nat} (hn : 0 < n) (h : (x + y) % n = z % n) :
    x % n = (z % n + (n - y % n)) % n := by
  have hy : y + (n - y % n) = n * (y / n + 1) := by
    have hlt := Nat.mod_lt y hn
    have hdiv := Nat.div_add_mod y n
    rw [Nat.mul_add]
    omega
  rw [← h, Nat.mod_add_mod, Nat.add_assoc, hy, Nat.add_mul_mod_self_left]

theorem p_pos : 0 < p := by decide

/-- Within its precondition a command computes the field operation of its contract. -/
theorem value_resultLimbs_mod {i : Instr} {s : State} (hpre : Precondition i s) {r : Reg} (hd : destReg i = some r) :
    some (value (resultLimbs i s) % p) = fieldResult i s := by
  cases i with
  | add rd a b => rw [fieldResult, resultLimbs, value_addLimbs hpre, residue, residue, ← Nat.add_mod]
  | sub rd a b =>
    obtain ⟨hb, ha⟩ := hpre
    exact congrArg some (mod_eq_add_sub_mod p_pos (value_subLimbs_add_mod hb ha))
  | neg rd a =>
    have hzero : (value (negLimbs (s.reg a)) + value (s.reg a)) % p = 0 % p := by
      rw [value_negLimbs hpre, Nat.mul_mod_left, Nat.zero_mod]
    rw [fieldResult, resultLimbs, mod_eq_add_sub_mod p_pos hzero, Nat.zero_mod, Nat.zero_add, residue]
  | mul rd a b =>
    obtain ⟨ha, hb⟩ := hpre
    rw [fieldResult, resultLimbs, value_mulLimbs_mod_of_bnd ha hb, residue, residue, ← Nat.mul_mod]
  | sqr rd a => rw [fieldResult, resultLimbs, value_sqrLimbs_mod hpre, residue, ← Nat.mul_mod, Nat.pow_two]
  | sqr2 rd a =>
    rw [fieldResult, resultLimbs, value_sqr2Limbs_mod hpre, residue, ← Nat.mul_mod_mod, Nat.pow_two,
      Nat.mul_mod (value (s.reg a)), Nat.mul_mod_mod]
  | cmov rd a flag =>
    rw [fieldResult, resultLimbs, cmovLimbs_eq, residue, residue]
    split <;> rfl
  | fromb rd k => rw [fieldResult, resultLimbs, value_frombLimbs]
  | tob k a => cases hd

/-- A command leaves every register but its destination. -/
theorem reg_of_exec_other {i : Instr} {r : Reg} {s t : State} (hd : destReg i ≠ some r) (h : exec i s = .next t) :
    t.reg r = s.reg r := by
  obtain ⟨rd, x, hrd, -, he⟩ | ⟨k, n, -, -, he⟩ := exec_cases i s
  · cases he.symm.trans h
    exact reg_setReg_ne s x fun hr => hd (hr ▸ hrd)
  · cases he.symm.trans h
    exact setSlot_reg s k _ r

/-! ## Bounds -/

theorem carryOk_of_limbs {x : FieldElement} (h : ∀ k, k ≠ 0 → (limb x k).toNat ≤ 2 ^ 64 - 2 ^ 13) : CarryOk x :=
  ⟨h 1 (by decide), h 2 (by decide), h 3 (by decide), h 4 (by decide)⟩

/-- The "needs" column of R164's table, on bounds, gives the precondition on every state within them. -/
theorem precondition_of_bounds {i : Instr} {B : Bounds} {s : State} (hB : boundsSuffice i B) (hw : Within B s) :
    Precondition i s := by
  have hcarry : ∀ r, (∀ k, k ≠ 0 → B r k ≤ 2 ^ 64 - 2 ^ 13) → CarryOk (s.reg r) := fun r h =>
    carryOk_of_limbs fun k hk => (hw r k).trans (h k hk)
  have hbnd : ∀ r, (∀ k, B r k < 2 ^ 54) → Bnd (s.reg r) 54 := fun r h k => (hw r k).trans_lt (h k)
  cases i with
  | add rd a b => exact fun k => (Nat.add_le_add (hw a k) (hw b k)).trans_lt (hB k)
  | sub rd a b => exact ⟨hcarry b hB.1, fun k => (hw a k).trans_lt (hB.2 k)⟩
  | neg rd a => exact hcarry a hB
  | mul rd a b => exact ⟨hbnd a fun k => (hB k).1, hbnd b fun k => (hB k).2⟩
  | sqr rd a => exact hbnd a hB
  | sqr2 rd a => exact hbnd a hB
  | cmov rd a flag => trivial
  | fromb rd k => trivial
  | tob k a => exact hcarry a hB

theorem limb_le_of_tight {x : FieldElement} (h : Tight x) (k : Fin 5) :
    (limb x k).toNat ≤ if k = 0 then 2 ^ 51 + 2 ^ 18 - 1 else 2 ^ 51 - 1 := by
  split
  · next hk => exact Nat.le_sub_one_of_lt (hk ▸ h.1)
  · next hk => exact Nat.le_sub_one_of_lt (limb_lt_of_tight h k hk)

/-- The "gives" column of R164's table bounds a command's result. -/
theorem limb_resultLimbs_le {i : Instr} {B : Bounds} {s : State} (hpre : Precondition i s) (hw : Within B s) {r : Reg}
    (hd : destReg i = some r) (k : Fin 5) : (limb (resultLimbs i s) k).toNat ≤ boundGiven i B k := by
  cases i with
  | add rd a b => exact (toNat_limb_addLimbs_exact hpre k).trans_le (Nat.add_le_add (hw a k) (hw b k))
  | sub rd a b =>
    obtain ⟨hb, ha⟩ := hpre
    exact (limb_subLimbs_le hb ha k).trans (Nat.add_le_add_right (hw a k) _)
  | neg rd a => exact (Nat.le_add_right _ _).trans_eq (toNat_limb_negLimbs_add hpre k)
  | mul rd a b => exact limb_le_of_tight (tight_mulLimbs _ _) k
  | sqr rd a => exact limb_le_of_tight (tight_sqrLimbs _) k
  | sqr2 rd a =>
    have hle := limb_le_of_tight (tight_sqrLimbs (s.reg a)) k
    rw [resultLimbs, boundGiven, toNat_limb_sqr2Limbs]
    by_cases hk : k = 0
    · rw [if_pos hk] at hle ⊢
      omega
    · rw [if_neg hk] at hle ⊢
      omega
  | cmov rd a flag =>
    rw [resultLimbs, boundGiven, cmovLimbs_eq]
    split
    · exact (hw a k).trans (le_max_right _ _)
    · exact (hw rd k).trans (le_max_left _ _)
  | fromb rd slot => exact Nat.le_sub_one_of_lt (bnd_frombLimbs _ k)
  | tob slot a => cases hd

/-- One command keeps the tracked bounds true. -/
theorem within_boundsAfter {i : Instr} {B : Bounds} {s t : State} (hpre : Precondition i s) (hw : Within B s)
    (h : exec i s = .next t) : Within (boundsAfter i B) t := by
  intro r k
  rw [boundsAfter]
  split
  · next hd =>
    rw [reg_of_exec hd h]
    exact limb_resultLimbs_le hpre hw hd k
  · next hd =>
    rw [reg_of_exec_other hd h]
    exact hw r k

/-! ## The bound tracking over a program -/

/-- The step that runs a presented command whose needs are met. -/
theorem step_tracked {i : Instr} {B : Bounds} {s : State} {os : List HostOp} (hp : s.pending = .cmd (encode i) :: os)
    (hB : boundsSuffice i B) (hw : Within B s) :
    ∃ t, step s = .next t ∧ Within (boundsAfter i B) t ∧ t.err = s.err ∧ t.pending = os := by
  obtain ⟨t, hexec, hcmd⟩ := hostCmd_command (decode_encode i) { s with pending := os }
  have hstep : step s = .next (t.respond .ok) := (step_cons hp).trans hcmd
  have hpre : Precondition i { s with pending := os } := precondition_of_bounds hB hw
  have hwt : Within (boundsAfter i B) t := within_boundsAfter hpre hw hexec
  obtain ⟨herr, -⟩ := exec_keeps_status hexec
  exact ⟨t.respond .ok, hstep, hwt, herr, (step_pending hstep).trans (congrArg List.tail hp)⟩

/-- A checked program runs to its end within the tracked bounds. -/
theorem run_tracked {is : List Instr} {B : Bounds} {s : State} {rest : List HostOp}
    (hp : s.pending = presented is ++ rest) (hw : Within B s) (hB : growthChecked is B) :
    ∃ t, Host.Core.run core is.length s = .next t ∧ Within (boundsThrough is B) t ∧ t.err = s.err ∧
      t.pending = rest := by
  induction is generalizing B s with
  | nil => exact ⟨s, rfl, hw, rfl, hp⟩
  | cons i is ih =>
    obtain ⟨hneeds, hrest⟩ := hB
    obtain ⟨t, hstep, hwt, herr, hpt⟩ := step_tracked hp hneeds hw
    obtain ⟨u, hrun, hwu, herru, hpu⟩ := ih hpt hwt hrest
    exact ⟨u, (run_cons hstep).trans hrun, hwu, herru.trans herr, hpu⟩

/-- And every command of it finds its precondition met. -/
theorem run_meets_preconditions {is : List Instr} {B : Bounds} {s : State} {rest : List HostOp}
    (hp : s.pending = presented is ++ rest) (hw : Within B s) (hB : growthChecked is B) (j : Nat) (hj : j < is.length)
    {u : State} (hu : Host.Core.run core j s = .next u) : Precondition is[j] u := by
  induction is generalizing B s j with
  | nil => exact absurd hj (Nat.not_lt_zero j)
  | cons i is ih =>
    obtain ⟨hneeds, hrest⟩ := hB
    cases j with
    | zero => exact run_zero hu ▸ precondition_of_bounds hneeds hw
    | succ j =>
      obtain ⟨t, hstep, hwt, -, hpt⟩ := step_tracked hp hneeds hw
      exact ih hpt hwt hrest j (Nat.lt_of_succ_lt_succ hj) ((run_cons hstep).symm.trans hu)

/-! ## Sums of reduced values -/

/-- Adding up vectors whose limbs are at most `M`: while the limbs cannot reach `2^64`, the sum is exact. -/
theorem foldl_addLimbs {M : Nat} {xs : List FieldElement} (hM : ∀ x ∈ xs, ∀ k, (limb x k).toNat ≤ M) {a : FieldElement}
    (ha : ∀ k, (limb a k).toNat + xs.length * M < 2 ^ 64) :
    (∀ k, (limb (xs.foldl addLimbs a) k).toNat ≤ (limb a k).toNat + xs.length * M) ∧
      value (xs.foldl addLimbs a) = value a + (xs.map value).sum := by
  induction xs generalizing a with
  | nil => simp
  | cons x xs ih =>
    obtain ⟨hx, hxs⟩ := List.forall_mem_cons.mp hM
    simp only [List.length_cons, Nat.succ_mul] at ha ⊢
    have hsum : ∀ k, (limb a k).toNat + (limb x k).toNat < 2 ^ 64 := fun k => by
      have := ha k
      have := hx k
      omega
    have hlimb := toNat_limb_addLimbs_exact hsum
    obtain ⟨hle, hvalue⟩ := ih hxs (a := addLimbs a x) fun k => by
      have := ha k
      have := hx k
      rw [hlimb]
      omega
    refine ⟨fun k => ?_, ?_⟩
    · have hrest := hle k
      have hhead := hx k
      rw [hlimb] at hrest
      rw [List.foldl_cons]
      omega
    · rw [List.foldl_cons, hvalue, value_addLimbs hsum, List.map_cons, List.sum_cons, Nat.add_assoc]

/-- A sum of `n` vectors is a legal operand of MUL while `n` times the largest limb stays below `2^54` (R165). -/
theorem sum_multiplicable {M n : Nat} {xs : List FieldElement} (hlen : xs.length ≤ n) (hn : n * M < 2 ^ 54)
    (hM : ∀ x ∈ xs, ∀ k, (limb x k).toNat ≤ M) :
    Bnd (xs.foldl addLimbs ⟨0, 0, 0, 0, 0⟩) 54 ∧ value (xs.foldl addLimbs ⟨0, 0, 0, 0, 0⟩) = (xs.map value).sum := by
  have hlt : xs.length * M < 2 ^ 54 := (Nat.mul_le_mul_right M hlen).trans_lt hn
  obtain ⟨hle, hvalue⟩ := foldl_addLimbs hM (a := ⟨0, 0, 0, 0, 0⟩) fun k => by
    rw [toNat_limb_zeros, Nat.zero_add]
    exact hlt.trans (by norm_num)
  simp only [toNat_limb_zeros, value_zeros, Nat.zero_add] at hle hvalue
  exact ⟨fun k => (hle k).trans_lt hlt, hvalue⟩

/-- SUB of two `Tight` values (R165). -/
theorem bnd_subLimbs_tight {a b : FieldElement} (ha : Tight a) (hb : Tight b) : Bnd (subLimbs a b) 53 :=
  bnd_subLimbs (carryOk_of_tight hb) (bnd_of_tight ha) (by norm_num) (by norm_num)

/-! ## The statements -/

/-- Settles O50: `run_tracked` and `run_meets_preconditions`, each by induction over the program. -/
theorem growthAnalysisIsSound : Obligations.GrowthAnalysisIsSound :=
  fun _ _ _ _ hp hw hB => ⟨run_tracked hp hw hB, fun j hj _ hu => run_meets_preconditions hp hw hB j hj hu⟩

/-- Settles O49: the destination's residue is `value_resultLimbs_mod`, other registers are untouched, and TOB writes
the residue of its source. -/
theorem commandsComputeInTheField : Obligations.CommandsComputeInTheField := by
  intro i s hpre
  obtain ⟨t, ht⟩ := exec_answers_next i s
  refine ⟨t, ht, fun r hd => ?destination, fun r hd => ?others, ?tob⟩
  case destination => rw [residue, reg_of_exec hd ht, value_resultLimbs_mod hpre hd]
  case others => rw [residue, residue, reg_of_exec_other hd ht]
  case tob =>
    rintro k a rfl
    cases (exec_tob k a s).symm.trans ht
    rw [le256_slotBytes_tob, value_tobLimbs_of_carryOk hpre, residue]

/-- Settles O51: `sum_multiplicable` for the two bounds, the bounds of SUB and ADD, and MUL by one. -/
theorem reducedSumsStayMultiplicable : Obligations.ReducedSumsStayMultiplicable := by
  refine ⟨fun xs hlen hxs => ?tight, fun xs hlen hxs => ?reduced, fun a b c d ha hb hc hd => ?differences,
    fun d a one s ha hone => ?backToTight⟩
  case tight =>
    refine sum_multiplicable (M := 2 ^ 51 + 2 ^ 18 - 1) hlen (by norm_num) fun x hx k => ?_
    exact (limb_le_of_tight (hxs x hx) k).trans (by split <;> norm_num)
  case reduced =>
    exact sum_multiplicable (M := 2 ^ 51 - 1) hlen (by norm_num) fun x hx k => Nat.le_sub_one_of_lt (hxs x hx k)
  case differences =>
    have hab := bnd_subLimbs_tight ha hb
    have hcd := bnd_subLimbs_tight hc hd
    have hok : CarryOk (subLimbs c d) := carryOk_of_bnd fun k => (hcd k).trans (by norm_num)
    exact ⟨hab, bnd_addLimbs hab hcd, bnd_subLimbs hok hab (by norm_num) (by norm_num)⟩
  case backToTight =>
    refine ⟨_, rfl, ?_⟩
    rw [residue, residue, reg_setReg_self, hone]
    exact ⟨tight_mulLimbs _ _, value_mulLimbs_one_mod ha⟩

end Sys2Proof.Machine
end
